-- ==== Sys2Proof/Word.lean ====
section
/-! DEFINITION. The bit vectors of BH565 and the colour triple (spec/00_scope.md R8, R9; spec/10_state.md R21).
Only what the spec treats as bits is a bit vector here: coordinates are integers, cell indexes and
frame offsets are natural numbers. -/

namespace Sys2Proof

/-- An 8-bit channel value or a byte of a frame, unsigned (R9). -/
abbrev Byte := BitVec 8

/-- A cell value: the 16-bit Packed Color `RRRRR GGGGGG BBBBB` (R21). -/
abbrev PackedColor := BitVec 16

/-- A source pixel or a wide colour, `A R G B` from the top (R71). -/
abbrev Pixel := BitVec 32

/-- The DATA field of a response (R66). -/
abbrev RespData := BitVec 32

/-- A whole response word, `ILL ++ DATA` (R66). -/
abbrev RespWord := BitVec 33

/-- A command word in format C (R60, R61). -/
abbrev CmdWord := BitVec 64

/-- The wide RGB colour: "three unsigned 8-bit values (red, green, blue)" (R12, RGB Color). It has no
alpha: alpha is dropped before the codec (R97). -/
structure Rgb where
  red : Byte
  green : Byte
  blue : Byte
deriving DecidableEq, Repr

end Sys2Proof
end

