-- ==== Sys2Proof/Config.lean ====
section
/-! DEFINITION. The implementation parameters of BH565 (spec/00_scope.md R4, R5). The spec fixes all of
them and leaves no value open, so the model has no free value. -/

namespace Sys2Proof.Config

/-- `W`, the number of columns (R4). -/
abbrev W : Nat := 8

/-- `H`, the number of rows (R4). -/
abbrev H : Nat := 8

/-- `NCELL = W * H`, the number of cells of a pixel store (R4). -/
abbrev NCELL : Nat := W * H

/-- `FRAMEBYTES = W * H * 2`, the number of bytes of a frame (R4). -/
abbrev FRAMEBYTES : Nat := W * H * 2

/-- The smallest coordinate a command can present: a 12-bit two's-complement field (R5, R63). -/
abbrev coordMin : Int := -2048

/-- The largest coordinate a command can present (R5, R63). -/
abbrev coordMax : Int := 2047

/-- The alpha of a colour that comes from a cell: opaque (R132; the number is the spec's decision D13,
from general knowledge K2: UNVERIFIED, log 14). -/
abbrev opaqueAlpha : Byte := 0xFF

/-- The absent colour of an out-of-range COLORAT (R132; decision D13: UNVERIFIED, log 14). -/
abbrev absentColour : RespData := 0x00000000

end Sys2Proof.Config
end

