-- ==== Sys2Proof/Syntax.lean ====
section
/-! DEFINITION. The twelve commands of BH565, one constructor per row of spec/opcode_table.json
(spec/30_encoding.md R74). Coordinates are the mathematical integers the rules speak of (R10, R63);
colours and packed words are bits used as they stand (R64). -/

namespace Sys2Proof

inductive Instr where
  /-- `PACK r, g, b`: quantize a colour (R92). -/
  | pack (r g b : Byte)
  /-- `UNPACK w`: dequantize a packed word (R94). -/
  | unpack (w : PackedColor)
  /-- `INIT`: construct the store (R110). -/
  | init
  /-- `GET x, y`: read one cell (R111). -/
  | get (x y : Int)
  /-- `SET x, y, w`: write one cell (R112). -/
  | set (x y : Int) (w : PackedColor)
  /-- `BOUNDS`: report the addressable rectangle (R130). -/
  | bounds
  /-- `COLORAT x, y`: read one cell as a wide colour (R132). -/
  | colorAt (x y : Int)
  /-- `SETCOLOR x, y, a, r, g, b`: write one cell from a wide colour (R133). -/
  | setColor (x y : Int) (a r g b : Byte)
  /-- `LOADIMG`: fill the store from the source image (R134). -/
  | loadImg
  /-- `SER`: serialise the store (R150). -/
  | ser
  /-- `SERZ`: emit the blank frame (R151). -/
  | serz
  /-- `SERIMG`: quantize and serialise the source image (R152). -/
  | serImg
deriving DecidableEq, Repr

end Sys2Proof
end

