-- ==== Sys2Proof/WellFormed.lean ====
section
/-! DEFINITION. Which commands have an encoding (spec/30_encoding.md R82: "a text line with an operand
outside its range has no encoding"). The channel and word ranges of R82 hold by the types of the
fields, so the check is on the coordinates. -/

namespace Sys2Proof

/-- `v` fits the 12-bit two's-complement coordinate field (R63). -/
def coordOk (v : Int) : Bool := decide (Config.coordMin ≤ v ∧ v ≤ Config.coordMax)

/-- Every operand is in the range its field can hold (R82). -/
def Instr.wellFormed : Instr → Bool
  | .pack _ _ _ => true
  | .unpack _ => true
  | .init => true
  | .get x y => coordOk x && coordOk y
  | .set x y _ => coordOk x && coordOk y
  | .bounds => true
  | .colorAt x y => coordOk x && coordOk y
  | .setColor x y _ _ _ _ => coordOk x && coordOk y
  | .loadImg => true
  | .ser => true
  | .serz => true
  | .serImg => true

end Sys2Proof
end

