-- ==== Sys2Proof/Decode.lean ====
section
/-! DEFINITION. The command word: fields, operation codes, mask and match, decoder and encoder
(spec/30_encoding.md R60 to R65, R74 to R77). -/

namespace Sys2Proof

/-! ### The fields of format C (R61) -/

/-- `OP = CMD[63:60]`. -/
def fieldOp (c : CmdWord) : BitVec 4 := c.extractLsb' 60 4
/-- `X = CMD[55:44]`. -/
def fieldX (c : CmdWord) : BitVec 12 := c.extractLsb' 44 12
/-- `Y = CMD[43:32]`. -/
def fieldY (c : CmdWord) : BitVec 12 := c.extractLsb' 32 12
/-- `A = CMD[31:24]`. -/
def fieldA (c : CmdWord) : Byte := c.extractLsb' 24 8
/-- `R = CMD[23:16]`. -/
def fieldR (c : CmdWord) : Byte := c.extractLsb' 16 8
/-- `G = CMD[15:8]`. -/
def fieldG (c : CmdWord) : Byte := c.extractLsb' 8 8
/-- `B = CMD[7:0]`. -/
def fieldB (c : CmdWord) : Byte := c.extractLsb' 0 8
/-- `WORD = CMD[15:0]`, which overlays G and B. -/
def fieldWord (c : CmdWord) : PackedColor := c.extractLsb' 0 16

/-! ### The opcode map (R74) -/

/-- The operations that an OP value can name. -/
inductive Opcode where
  | pack | unpack | init | get | set | bounds | colorAt | setColor | loadImg | ser | serz | serImg
deriving DecidableEq, Repr

/-- The OP value of each command (R74). -/
def Opcode.code : Opcode → BitVec 4
  | .pack => 0x1
  | .unpack => 0x2
  | .init => 0x3
  | .get => 0x4
  | .set => 0x5
  | .bounds => 0x6
  | .colorAt => 0x7
  | .setColor => 0x8
  | .loadImg => 0x9
  | .ser => 0xA
  | .serz => 0xB
  | .serImg => 0xC

/-- The command an OP value names; 0x0, 0xD, 0xE and 0xF are reserved (R76). -/
def Opcode.ofCode (op : BitVec 4) : Option Opcode :=
  match op.toNat with
  | 0x1 => some .pack
  | 0x2 => some .unpack
  | 0x3 => some .init
  | 0x4 => some .get
  | 0x5 => some .set
  | 0x6 => some .bounds
  | 0x7 => some .colorAt
  | 0x8 => some .setColor
  | 0x9 => some .loadImg
  | 0xA => some .ser
  | 0xB => some .serz
  | 0xC => some .serImg
  | _ => none

/-- The bits of a command word that are fixed: OP, ZERO and every unused field (R75). -/
def Opcode.mask : Opcode → CmdWord
  | .pack => 0xFFFFFFFFFF000000
  | .unpack => 0xFFFFFFFFFFFF0000
  | .init => 0xFFFFFFFFFFFFFFFF
  | .get => 0xFF000000FFFFFFFF
  | .set => 0xFF000000FFFF0000
  | .bounds => 0xFFFFFFFFFFFFFFFF
  | .colorAt => 0xFF000000FFFFFFFF
  | .setColor => 0xFF00000000000000
  | .loadImg => 0xFFFFFFFFFFFFFFFF
  | .ser => 0xFFFFFFFFFFFFFFFF
  | .serz => 0xFFFFFFFFFFFFFFFF
  | .serImg => 0xFFFFFFFFFFFFFFFF

/-- The value of the fixed bits: OP in bits 63:60 and zeros elsewhere (R75). -/
def Opcode.matchBits : Opcode → CmdWord
  | .pack => 0x1000000000000000
  | .unpack => 0x2000000000000000
  | .init => 0x3000000000000000
  | .get => 0x4000000000000000
  | .set => 0x5000000000000000
  | .bounds => 0x6000000000000000
  | .colorAt => 0x7000000000000000
  | .setColor => 0x8000000000000000
  | .loadImg => 0x9000000000000000
  | .ser => 0xA000000000000000
  | .serz => 0xB000000000000000
  | .serImg => 0xC000000000000000

/-- `c` spells the command `op` exactly when its fixed bits are right (R75). -/
def Opcode.spelledBy (op : Opcode) (c : CmdWord) : Bool := c &&& op.mask == op.matchBits

/-- The used fields of a word that spells `op`, as operands (R62 to R64): coordinates are the integers
their two's-complement fields denote. -/
def Opcode.operands (op : Opcode) (c : CmdWord) : Instr :=
  match op with
  | .pack => .pack (fieldR c) (fieldG c) (fieldB c)
  | .unpack => .unpack (fieldWord c)
  | .init => .init
  | .get => .get (fieldX c).toInt (fieldY c).toInt
  | .set => .set (fieldX c).toInt (fieldY c).toInt (fieldWord c)
  | .bounds => .bounds
  | .colorAt => .colorAt (fieldX c).toInt (fieldY c).toInt
  | .setColor =>
    .setColor (fieldX c).toInt (fieldY c).toInt (fieldA c) (fieldR c) (fieldG c) (fieldB c)
  | .loadImg => .loadImg
  | .ser => .ser
  | .serz => .serz
  | .serImg => .serImg

/-- The command of the opcode table that an instruction is. -/
def Instr.opcode : Instr → Opcode
  | .pack _ _ _ => .pack
  | .unpack _ => .unpack
  | .init => .init
  | .get _ _ => .get
  | .set _ _ _ => .set
  | .bounds => .bounds
  | .colorAt _ _ => .colorAt
  | .setColor _ _ _ _ _ _ => .setColor
  | .loadImg => .loadImg
  | .ser => .ser
  | .serz => .serz
  | .serImg => .serImg

/-! ### The decoder (R65) -/

/-- Why a word spells no command. The block's response does not tell the two apart (R171). -/
inductive Illegal where
  /-- OP is 0x0, 0xD, 0xE or 0xF (R76). -/
  | reservedOp
  /-- ZERO or a field the command does not use holds a 1 (R77). -/
  | mustBeZero
deriving DecidableEq, Repr

/-- The decoding algorithm of R65: total on all `2^64` words. -/
def decode (c : CmdWord) : Except Illegal Instr :=
  match Opcode.ofCode (fieldOp c) with
  | none => .error .reservedOp
  | some op => if op.spelledBy c then .ok (op.operands c) else .error .mustBeZero

/-- The decoder as the host asks for it: bit 0 of `w` is bit 0 of the command word (R8), which is one
parallel value with no byte order (R47, R60). Bits above `nbits` are zero. -/
def decodeTableWord (nbits w : Nat) : Option Instr :=
  match decode (BitVec.ofNat 64 (w % 2 ^ nbits)) with
  | .ok i => some i
  | .error _ => none

/-! ### The encoder (R61, R62) -/

/-- `OP ++ ZERO ++ X ++ Y ++ A ++ R ++ G ++ B` (R61). -/
def formatC (op : BitVec 4) (x y : BitVec 12) (a r g b : Byte) : CmdWord :=
  op ++ (0 : BitVec 4) ++ x ++ y ++ a ++ r ++ g ++ b

/-- Format C with a packed word in place of G and B; A and R are zero (R61, R62). -/
def formatCWord (op : BitVec 4) (x y : BitVec 12) (w : PackedColor) : CmdWord :=
  op ++ (0 : BitVec 4) ++ x ++ y ++ (0 : BitVec 16) ++ w

/-- The coordinate field of an integer (R63). -/
def coordField (v : Int) : BitVec 12 := BitVec.ofInt 12 v

/-- The command word of an instruction (R61, R62, R82); every unused field is zero. An ill-formed
instruction has no encoding, and for it the value of this function means nothing. -/
def encode : Instr → CmdWord
  | .pack r g b => formatC 0x1 0 0 0 r g b
  | .unpack w => formatCWord 0x2 0 0 w
  | .init => formatC 0x3 0 0 0 0 0 0
  | .get x y => formatC 0x4 (coordField x) (coordField y) 0 0 0 0
  | .set x y w => formatCWord 0x5 (coordField x) (coordField y) w
  | .bounds => formatC 0x6 0 0 0 0 0 0
  | .colorAt x y => formatC 0x7 (coordField x) (coordField y) 0 0 0 0
  | .setColor x y a r g b => formatC 0x8 (coordField x) (coordField y) a r g b
  | .loadImg => formatC 0x9 0 0 0 0 0 0
  | .ser => formatC 0xA 0 0 0 0 0 0
  | .serz => formatC 0xB 0 0 0 0 0 0
  | .serImg => formatC 0xC 0 0 0 0 0 0

end Sys2Proof
end

