-- ==== Sys2Proof/Machine/State.lean ====
section
/-! DEFINITION. The state of BH565 (spec/10_state.md) as plain data, its value after reset
(spec/70_reset_and_hazards.md R191), and the reasons a step could stop.

The whole architectural state is the pixel store `pb` (R20). The other fields are what the ports
carry: `src` and `pending` come from the host, `responses`, `frames` and `requests` go to it
(R23(d), R202, R203; logs 1, 2 and 3). -/

namespace Sys2Proof.Machine

/-- A pixel store: the bytes of its 64 cells, keyed by their frame offset (R41, R46, R48: cell `i` starts
at offset `2 * i`), in the canonical form of `Memory.wf`. DESIGN CHOICE, log 4. -/
abbrev Memory := List Host.Cell

/-- What the host drives on the source-pixel port: 8 rows of 8 pixels (R42, R70). Plain data that stands
for "any function from [0,8) × [0,8) to 32-bit values". -/
structure SourceImage where
  rows : Vector (Vector Pixel 8) 8
deriving DecidableEq, Repr

/-- A request on the source-pixel port: `sx` the column and `sy` the row, 3 bits each (R70). -/
structure SrcRequest where
  sx : BitVec 3
  sy : BitVec 3
deriving DecidableEq, Repr

/-- One frame as it goes on the wire, offset 0 first (R46, R72). -/
abbrev Frame := List Byte

/-- What the host does to the block (R203): it applies reset between two commands, or it presents a
command word together with the image that answers the command's source requests (R202). -/
inductive HostMove where
  | reset
  | command (cmd : CmdWord) (src : SourceImage)
deriving DecidableEq, Repr

structure State where
  /-- The pixel store `PB` (R20). -/
  pb : Memory
  /-- The image on the source-pixel port (R70; log 3). -/
  src : SourceImage
  /-- The host's moves still to come, oldest first (R202; log 1). -/
  pending : List HostMove
  /-- The responses given so far, oldest first (R66, R202; log 2). -/
  responses : List RespWord
  /-- The frames put on the wire so far, in emission order (R72; log 2). -/
  frames : List Frame
  /-- The requests made on the source-pixel port so far, in order (R70; log 2). -/
  requests : List SrcRequest
deriving DecidableEq, Repr

/-- The value of the image on an idle source-pixel port: all zero (DESIGN CHOICE, log 3: the spec gives
the idle port no value). -/
def SourceImage.idle : SourceImage := ⟨Vector.replicate 8 (Vector.replicate 8 0)⟩

/-- The reset state (R29, R31, R191): every cell 0x0000, every port idle. -/
def State.reset : State where
  pb := []
  src := .idle
  pending := []
  responses := []
  frames := []
  requests := []

/-- Nobody raises a fault: "The block raises no synchronous exception" (R170). The type has no
constructor, so no step can end in one. -/
inductive Fault where
deriving DecidableEq, Repr

/-- Reasons a step has no meaning. Every command has one (R7), so no step ends in a refusal. -/
inductive Refusal where
  /-- The arm of a command that has no meaning yet; raised by `exec` only, and by none of its arms.
  Safe: the machine stops where the block goes on. -/
  | notModelled (mnemonic : String)
deriving DecidableEq, Repr

end Sys2Proof.Machine
end

