-- ==== Sys2Proof/Machine/Flags.lean ====
section
/-! DEFINITION. The response word and its one status bit, ILL (spec/30_encoding.md R66). BH565 has no flags,
condition codes or predicates (spec/10_state.md R26): no command computes a flag, and ILL is an output of
one step that no later command reads. -/

namespace Sys2Proof.Machine

/-- `respond(d)` sends `0b0 ++ d` (R10, R66). -/
def okWord (d : RespData) : RespWord := (0 : BitVec 1) ++ d

/-- `respond ILLEGAL` sends `0b1 ++ 0x00000000` (R10, R66, R78). -/
def illegalWord : RespWord := (1 : BitVec 1) ++ (0 : BitVec 32)

/-- ILL, bit 32 of a response (R66). -/
def respIll (r : RespWord) : Bool := r.getLsbD 32

/-- DATA, bits 31:0 of a response (R66). -/
def respData (r : RespWord) : RespData := r.extractLsb' 0 32

/-- "DATA is 0x00000000 when ILL = 1" (R66). -/
def respOk (r : RespWord) : Bool := !respIll r || respData r == 0

end Sys2Proof.Machine
end

