-- ==== Sys2Proof/Machine/Operands.lean ====
section
/-! DEFINITION. The pure functions behind the operands: the addresser (spec/20_memory.md R44, R45), the codec
(spec/40_codec.md R90, R93), and the fields of a source pixel (spec/30_encoding.md R71). -/

namespace Sys2Proof.Machine

open Sys2Proof.Config

/-! ### The addresser -/

/-- The bounds check, on the mathematical integers (R45). -/
abbrev InRange (x y : Int) : Prop := (0 ≤ x ∧ x < W) ∧ (0 ≤ y ∧ y < H)

/-- The linear index `y * W + x`: `x` is the column, `y` the row (R44). The formula is the spec's decision
D4, from general knowledge (K1): UNVERIFIED, log 5. A transposed matrix is mended here and nowhere else. -/
def Idx (x y : Int) : Nat := (y * W + x).toNat

/-- The addresser: the bounds check on both coordinates, and only then the index (R45, R173). -/
def addresser (x y : Int) : Option Nat := if InRange x y then some (Idx x y) else none

/-! ### The codec -/

/-- The quantizer `r[7:3] ++ g[7:2] ++ b[7:3]`: it truncates (R90, R91). -/
def pack (r g b : Byte) : PackedColor :=
  r.extractLsb' 3 5 ++ g.extractLsb' 2 6 ++ b.extractLsb' 3 5

/-- The dequantizer: each field at the top of its channel, the vacated bits zero (R93). -/
def unpack (w : PackedColor) : Rgb where
  red := w.extractLsb' 11 5 ++ (0 : BitVec 3)
  green := w.extractLsb' 5 6 ++ (0 : BitVec 2)
  blue := w.extractLsb' 0 5 ++ (0 : BitVec 3)

/-- Four bytes of DATA from the top, as in `respond(0xFF ++ r ++ g ++ b)` (R67). -/
def argb (a : Byte) (c : Rgb) : RespData := a ++ c.red ++ c.green ++ c.blue

/-- `zext_32` of a cell value (R9, R67). -/
def cellData (w : PackedColor) : RespData := w.setWidth 32

/-- The red, green and blue of a source pixel `A R G B`; the alpha is dropped (R71, R97, R135). -/
def pixelRgb (c : Pixel) : Rgb where
  red := c.extractLsb' 16 8
  green := c.extractLsb' 8 8
  blue := c.extractLsb' 0 8

/-- `pack(c[23:16], c[15:8], c[7:0])` (R134). -/
def packPixel (c : Pixel) : PackedColor :=
  pack (pixelRgb c).red (pixelRgb c).green (pixelRgb c).blue

/-! ### The source image -/

/-- `Src(sx, sy)` (R70): column `sx` of row `sy`. -/
def SourceImage.pixel (img : SourceImage) (q : SrcRequest) : Pixel :=
  (img.rows[q.sy.toNat]'(by have := q.sy.isLt; omega))[q.sx.toNat]'(by have := q.sx.isLt; omega)

end Sys2Proof.Machine
end

