-- ==== Sys2Proof/Machine/Ops.lean ====
section
/-! DEFINITION. The named operations over the pixel store and the ports (spec/20_memory.md, spec/00_scope.md
R10, spec/30_encoding.md R70 to R73, R78), taking a host move, and reset (spec/70_reset_and_hazards.md R190).

There is no exception to take and none to return from (spec/60_exceptions.md R170, R174, R175). The one
abnormal outcome, the ILLEGAL response, is the shared operation `respondIllegal`. -/

namespace Sys2Proof.Machine

open Sys2Proof.Config

/-! ### Bytes of a pixel store -/

/-- What an unlisted byte reads as: the reset content of a cell (R29). -/
def unlistedByte : Byte := 0x00

/-- The byte at frame offset `a`. -/
def Memory.readByte : Memory → Nat → Byte
  | [], _ => unlistedByte
  | c :: rest, a => if c.1 = a then c.2 else Memory.readByte rest a

/-- The store without an entry at `a`. -/
def Memory.eraseByte (m : Memory) (a : Nat) : Memory := m.filter fun c => c.1 != a

/-- An entry put before the first one at a higher offset. -/
def Memory.insertByte : Memory → Nat → Byte → Memory
  | [], a, b => [(a, b)]
  | c :: rest, a, b => if a < c.1 then (a, b) :: c :: rest else c :: Memory.insertByte rest a b

/-- Write one byte, keeping the canonical form: a byte equal to what an unlisted offset reads as has no
entry. -/
def Memory.writeByte (m : Memory) (a : Nat) (b : Byte) : Memory :=
  if b = unlistedByte then m.eraseByte a else (m.eraseByte a).insertByte a b

/-- The canonical form: offsets strictly rising and below `FRAMEBYTES`, no entry equal to what an unlisted
offset reads as. Equal stores are then equal lists. -/
def Memory.wf (m : Memory) : Bool :=
  decide (m.Pairwise fun c d => c.1 < d.1) &&
    m.all fun c => decide (c.1 < FRAMEBYTES) && c.2 != unlistedByte

/-! ### Cells of a pixel store: `PB[i]`, the only unit a command reaches (R10, R40, R50) -/

/-- `P[i][7:0]`. -/
def lowByte (v : PackedColor) : Byte := v.extractLsb' 0 8

/-- `P[i][15:8]`. -/
def highByte (v : PackedColor) : Byte := v.extractLsb' 8 8

/-- `PB[i]` (R10). -/
def Memory.readCell (m : Memory) (i : Nat) : PackedColor :=
  m.readByte (2 * i + 1) ++ m.readByte (2 * i)

/-- `PB[i] <- v`, all 16 bits at once (R10, R50). -/
def Memory.writeCell (m : Memory) (i : Nat) (v : PackedColor) : Memory :=
  (m.writeByte (2 * i) (lowByte v)).writeByte (2 * i + 1) (highByte v)

/-- The constant blank store, every cell 0x0000 (R22). It is not `PB` and no command writes it. -/
def blankStore : Memory := []

/-- A fresh temporary store of 64 cells, all 0x0000 (R152). -/
def freshStore : Memory := []

/-- The cell at `(x, y)`, or none when the addresser rejects the pair (R45, R49). -/
def Memory.cellAt (m : Memory) (x y : Int) : Option PackedColor :=
  (addresser x y).map fun i => m.readCell i

/-- Write the cell at `(x, y)`; a no-op when the addresser rejects the pair (R45, R49, R51). -/
def Memory.setCellAt (m : Memory) (x y : Int) (v : PackedColor) : Memory :=
  match addresser x y with
  | some i => m.writeCell i v
  | none => m

/-- `for i in 0 .. NCELL-1: PB[i] <- v` (R29, R110). -/
def Memory.fillCells (m : Memory) (v : PackedColor) : Memory :=
  (List.range NCELL).foldl (fun m i => m.writeCell i v) m

/-! ### The serialisation function -/

/-- `Ser(P)`: for every cell in index order its low byte, then its high byte (R46, R47). -/
def serFrame (p : Memory) : Frame :=
  (List.range NCELL).flatMap fun i => [lowByte (p.readCell i), highByte (p.readCell i)]

/-! ### The ports -/

/-- `respond(d)` (R10, R66). -/
def respond (d : RespData) (s : State) : State :=
  { s with responses := s.responses ++ [okWord d] }

/-- `respond ILLEGAL`, the whole effect of a word that spells no command: no cell changes, nothing goes on
the wire, the source is not read, and the block is ready for the next command (R78, R171, R175). -/
def respondIllegal (s : State) : State :=
  { s with responses := s.responses ++ [illegalWord] }

/-- `emit(F)` (R10, R72). The frame is a snapshot: nothing changes it later (R50, R150). -/
def emit (f : Frame) (s : State) : State := { s with frames := s.frames ++ [f] }

/-- The bytes of a frame as they travel, each with its 7-bit offset (R73). -/
def frameOnWire (f : Frame) : List (BitVec 7 × Byte) :=
  f.zipIdx.map fun p => (BitVec.ofNat 7 p.2, p.1)

/-- Everything that has gone over the wire, frame after frame (R72, R73). -/
def wireBytes (s : State) : List (BitVec 7 × Byte) := s.frames.flatMap frameOnWire

/-- One read of the source-pixel port: the request goes out, the image answers (R70). -/
def readSource (q : SrcRequest) (s : State) : Pixel × State :=
  (s.src.pixel q, { s with requests := s.requests ++ [q] })

/-- The coordinates of the source in the order the bulk commands visit them: `y` outer, `x` inner, both
ascending (R134; the order is decision D15, log 11). -/
def visitOrder : List SrcRequest :=
  (List.range H).flatMap fun y => (List.range W).map fun x => ⟨BitVec.ofNat 3 x, BitVec.ofNat 3 y⟩

/-- The body of the loop of R134 on a store `m`: read the pixel, quantize it, store it. -/
def loadPixel (acc : Memory × State) (q : SrcRequest) : Memory × State :=
  let (c, s) := readSource q acc.2
  (acc.1.writeCell (Idx q.sx.toNat q.sy.toNat) (packPixel c), s)

/-- The loop of R134 and R152: the source image into the store `m`. -/
def loadFromSource (m : Memory) (s : State) : Memory × State :=
  visitOrder.foldl loadPixel (m, s)

/-! ### Reset and the host's moves -/

/-- The reset input between two commands (R190, R203): the block is in its reset state, no response and no
frame goes out. What the ports delivered before and what the host has still to do stand as they are. -/
def applyReset (s : State) : State :=
  { State.reset with
    pending := s.pending, responses := s.responses, frames := s.frames, requests := s.requests }

/-- What the block finds at its inputs. -/
inductive Presented where
  /-- The host presents nothing (R202). -/
  | nothing
  /-- The reset input is applied; the state is the one with the move taken. -/
  | reset (s : State)
  /-- A command word; the state is the one with the move taken and its image on the source-pixel port. -/
  | command (c : CmdWord) (s : State)
deriving DecidableEq, Repr

/-- Take the host's next move: "the order of commands is the order in which the host presents them"
(R25, R53). -/
def takeMove (s : State) : Presented :=
  match s.pending with
  | [] => .nothing
  | .reset :: rest => .reset { s with pending := rest }
  | .command c img :: rest => .command c { s with pending := rest, src := img }

end Sys2Proof.Machine
end

