-- ==== Sys2Proof/Machine/Buffer.lean ====
section
/-! DEFINITION. The pixel store commands INIT, GET and SET (spec/41_buffer.md). -/

namespace Sys2Proof.Machine

/-- INIT (R110): all 64 cells 0x0000, and nothing on the wire. -/
def execInit (s : State) : Host.Outcome State Fault Refusal :=
  .next (respond 0x00000000 { s with pb := s.pb.fillCells 0x0000 })

/-- GET (R111): the cell, or 0x0000 out of range. -/
def execGet (x y : Int) (s : State) : Host.Outcome State Fault Refusal :=
  .next (respond (cellData ((s.pb.cellAt x y).getD 0x0000)) s)

/-- SET (R112): write the cell; out of range a no-op with the same response. -/
def execSet (x y : Int) (w : PackedColor) (s : State) : Host.Outcome State Fault Refusal :=
  .next (respond 0x00000000 { s with pb := s.pb.setCellAt x y w })

end Sys2Proof.Machine
end

