-- ==== Sys2Proof/Machine/Codec.lean ====
section
/-! DEFINITION. The codec commands PACK and UNPACK (spec/40_codec.md). -/

namespace Sys2Proof.Machine

/-- PACK (R92): respond the packed word; no state. -/
def execPack (r g b : Byte) (s : State) : Host.Outcome State Fault Refusal :=
  .next (respond (cellData (pack r g b)) s)

/-- UNPACK (R94): respond `0x00 ++ r ++ g ++ b`; no state. -/
def execUnpack (w : PackedColor) (s : State) : Host.Outcome State Fault Refusal :=
  .next (respond (argb 0x00 (unpack w)) s)

end Sys2Proof.Machine
end

