-- ==== Sys2Proof/Machine/Raster.lean ====
section
/-! DEFINITION. The raster adapter commands BOUNDS, COLORAT, SETCOLOR and LOADIMG (spec/42_raster.md).
`colorModel()` has no command (R131): every colour given out for a cell is opaque 8-bit RGB, and every
colour taken in loses its alpha. -/

namespace Sys2Proof.Machine

open Sys2Proof.Config

/-- BOUNDS (R130): min x, min y, and the exclusive max x and max y. -/
def execBounds (s : State) : Host.Outcome State Fault Refusal :=
  .next (respond ((0x00 : Byte) ++ (0x00 : Byte) ++ (0x08 : Byte) ++ (0x08 : Byte)) s)

/-- COLORAT (R132): the unpacked cell, opaque, or the absent colour out of range. -/
def execColorAt (x y : Int) (s : State) : Host.Outcome State Fault Refusal :=
  match s.pb.cellAt x y with
  | some w => .next (respond (argb opaqueAlpha (unpack w)) s)
  | none => .next (respond absentColour s)

/-- SETCOLOR (R133): quantize and write; the alpha is not used. -/
def execSetColor (x y : Int) (_a r g b : Byte) (s : State) : Host.Outcome State Fault Refusal :=
  .next (respond 0x00000000 { s with pb := s.pb.setCellAt x y (pack r g b) })

/-- LOADIMG (R134): the source image into `PB`. -/
def execLoadImg (s : State) : Host.Outcome State Fault Refusal :=
  let (m, t) := loadFromSource s.pb s
  .next (respond 0x00000000 { t with pb := m })

end Sys2Proof.Machine
end

