-- ==== Sys2Proof/Machine/Serializer.lean ====
section
/-! DEFINITION. The serializer commands SER, SERZ and SERIMG (spec/43_serializer.md). -/

namespace Sys2Proof.Machine

/-- SER (R150): the frame of `PB`. -/
def execSer (s : State) : Host.Outcome State Fault Refusal :=
  .next (respond 0x00000000 (emit (serFrame s.pb) s))

/-- SERZ (R151): the frame of the constant blank store; `PB` is neither read nor cleared. -/
def execSerz (s : State) : Host.Outcome State Fault Refusal :=
  .next (respond 0x00000000 (emit (serFrame blankStore) s))

/-- SERIMG (R152): the source image into a fresh store, its frame on the wire, the store discarded. -/
def execSerImg (s : State) : Host.Outcome State Fault Refusal :=
  let (m, t) := loadFromSource freshStore s
  .next (respond 0x00000000 (emit (serFrame m) t))

end Sys2Proof.Machine
end

