-- ==== Sys2Proof/Machine/Dispatch.lean ====
section
/-! DEFINITION. One arm per command (spec/30_encoding.md R74). -/

namespace Sys2Proof.Machine

def exec (i : Instr) (s : State) : Host.Outcome State Fault Refusal :=
  match i with
  | .pack r g b => Sys2Proof.Machine.execPack r g b s
  | .unpack w => Sys2Proof.Machine.execUnpack w s
  | .init => Sys2Proof.Machine.execInit s
  | .get x y => Sys2Proof.Machine.execGet x y s
  | .set x y w => Sys2Proof.Machine.execSet x y w s
  | .bounds => Sys2Proof.Machine.execBounds s
  | .colorAt x y => Sys2Proof.Machine.execColorAt x y s
  | .setColor x y a r g b => Sys2Proof.Machine.execSetColor x y a r g b s
  | .loadImg => Sys2Proof.Machine.execLoadImg s
  | .ser => Sys2Proof.Machine.execSer s
  | .serz => Sys2Proof.Machine.execSerz s
  | .serImg => Sys2Proof.Machine.execSerImg s

end Sys2Proof.Machine
end

