-- ==== Sys2Proof/Machine/Step.lean ====
section
/-! DEFINITION. One step: one host move (spec/00_scope.md R6, spec/70_reset_and_hazards.md R202, R203). -/

namespace Sys2Proof.Machine

/-- With nothing presented the block holds its state (R202); reset gives the reset state (R190, R191); a
command word is decoded first (R173) and then either executed or answered with ILLEGAL (R78). -/
def step (s : State) : Host.Outcome State Fault Refusal :=
  match takeMove s with
  | .nothing => .next s
  | .reset t => .next (applyReset t)
  | .command c t =>
    match decode c with
    | .ok i => exec i t
    | .error _ => .next (respondIllegal t)

/-- The host presents the word `w` as its next move, with the image that is on the source-pixel port; the
moves already pending come after it (log 12). Bits above `nbits` are zero. -/
def State.withFetchWord (s : State) (nbits w : Nat) : State :=
  { s with pending := .command (BitVec.ofNat 64 (w % 2 ^ nbits)) s.src :: s.pending }

end Sys2Proof.Machine
end

