-- ==== Sys2Proof/Machine/Assembly.lean ====
section
/-! DEFINITION. The text form of commands (spec/30_encoding.md R82; spec/00_scope.md R11): one command a line,
operands separated by commas, numbers decimal or `0x` hexadecimal, `;` starts a comment, and four
pseudo-commands. A line is a list of characters. The machine does not use this file: it says which command
a line of text stands for. What R82 leaves to a reader of text (blanks, letter case) is log 16. -/

namespace Sys2Proof.Assembly

/-- The names a line can begin with: the twelve commands and the pseudo-commands (R82). -/
inductive TextOp where
  | command (op : Opcode)
  /-- `DRAW` = `SER`. -/
  | draw
  /-- `CLEAR` = `SERZ`. -/
  | clear
  /-- `DRAWIMAGE` = `SERIMG`. -/
  | drawImage
  /-- `SETRGB x, y, r, g, b` = `SETCOLOR x, y, 0xFF, r, g, b`. -/
  | setRgb
deriving DecidableEq, Repr

/-- The spelling of each name (R82). -/
def names : List (List Char × TextOp) :=
  [ (['P', 'A', 'C', 'K'], .command .pack),
    (['U', 'N', 'P', 'A', 'C', 'K'], .command .unpack),
    (['I', 'N', 'I', 'T'], .command .init),
    (['G', 'E', 'T'], .command .get),
    (['S', 'E', 'T'], .command .set),
    (['B', 'O', 'U', 'N', 'D', 'S'], .command .bounds),
    (['C', 'O', 'L', 'O', 'R', 'A', 'T'], .command .colorAt),
    (['S', 'E', 'T', 'C', 'O', 'L', 'O', 'R'], .command .setColor),
    (['L', 'O', 'A', 'D', 'I', 'M', 'G'], .command .loadImg),
    (['S', 'E', 'R'], .command .ser),
    (['S', 'E', 'R', 'Z'], .command .serz),
    (['S', 'E', 'R', 'I', 'M', 'G'], .command .serImg) ] ++
  [ (['D', 'R', 'A', 'W'], .draw),
    (['C', 'L', 'E', 'A', 'R'], .clear),
    (['D', 'R', 'A', 'W', 'I', 'M', 'A', 'G', 'E'], .drawImage),
    (['S', 'E', 'T', 'R', 'G', 'B'], .setRgb) ]

/-- The name that `cs` spells. -/
def findName (cs : List Char) : List (List Char × TextOp) → Option TextOp
  | [] => none
  | e :: rest => if e.1 = cs then some e.2 else findName cs rest

/-! ### Numbers -/

/-- A number as written: a magnitude and whether a `-` stands before it. -/
structure Number where
  negative : Bool
  magnitude : Nat
deriving DecidableEq, Repr

/-- The value of a digit in base 10 or 16. -/
def digitValue (base : Nat) (c : Char) : Option Nat :=
  let n := c.toNat
  let v :=
    if 48 ≤ n ∧ n ≤ 57 then n - 48
    else if 97 ≤ n ∧ n ≤ 102 then n - 87
    else if 65 ≤ n ∧ n ≤ 70 then n - 55
    else base
  if v < base then some v else none

/-- The value of a run of digits, most significant first, after `acc`. -/
def digitsFrom (base acc : Nat) : List Char → Option Nat
  | [] => some acc
  | c :: cs =>
    match digitValue base c with
    | some d => digitsFrom base (acc * base + d) cs
    | none => none

/-- A run of at least one digit. -/
def digits (base : Nat) : List Char → Option Nat
  | [] => none
  | c :: cs => digitsFrom base 0 (c :: cs)

/-- "numbers decimal (with an optional leading `-` for coordinates) or `0x` hexadecimal" (R82). -/
def parseNumber : List Char → Option Number
  | '0' :: 'x' :: cs => (digits 16 cs).map fun n => ⟨false, n⟩
  | '-' :: cs => (digits 10 cs).map fun n => ⟨true, n⟩
  | cs => (digits 10 cs).map fun n => ⟨false, n⟩

/-! ### Operands: a value outside its range has no encoding (R82) -/

/-- `x` or `y`, in `[-2048, 2047]`. -/
def Number.coord (n : Number) : Option Int :=
  let v : Int := if n.negative then -n.magnitude else n.magnitude
  if coordOk v then some v else none

/-- `a`, `r`, `g` or `b`, in `[0, 255]`; no `-`. -/
def Number.channel (n : Number) : Option Byte :=
  if n.negative = false ∧ n.magnitude < 256 then some (BitVec.ofNat 8 n.magnitude) else none

/-- `w`, in `[0, 65535]`; no `-`. -/
def Number.word (n : Number) : Option PackedColor :=
  if n.negative = false ∧ n.magnitude < 65536 then some (BitVec.ofNat 16 n.magnitude) else none

/-- The command a name and its operands stand for, if any (R82). -/
def TextOp.assemble (t : TextOp) (ns : List Number) : Option Instr :=
  match t, ns with
  | .command .pack, [r, g, b] =>
    r.channel.bind fun r => g.channel.bind fun g => b.channel.map fun b => .pack r g b
  | .command .unpack, [w] => w.word.map fun w => .unpack w
  | .command .init, [] => some .init
  | .command .get, [x, y] => x.coord.bind fun x => y.coord.map fun y => .get x y
  | .command .set, [x, y, w] =>
    x.coord.bind fun x => y.coord.bind fun y => w.word.map fun w => .set x y w
  | .command .bounds, [] => some .bounds
  | .command .colorAt, [x, y] => x.coord.bind fun x => y.coord.map fun y => .colorAt x y
  | .command .setColor, [x, y, a, r, g, b] =>
    x.coord.bind fun x => y.coord.bind fun y => a.channel.bind fun a => r.channel.bind fun r =>
      g.channel.bind fun g => b.channel.map fun b => .setColor x y a r g b
  | .command .loadImg, [] => some .loadImg
  | .command .ser, [] => some .ser
  | .command .serz, [] => some .serz
  | .command .serImg, [] => some .serImg
  | .draw, [] => some .ser
  | .clear, [] => some .serz
  | .drawImage, [] => some .serImg
  | .setRgb, [x, y, r, g, b] =>
    x.coord.bind fun x => y.coord.bind fun y => r.channel.bind fun r =>
      g.channel.bind fun g => b.channel.map fun b => .setColor x y 0xFF r g b
  | _, _ => none

/-! ### Lines -/

/-- A blank or a tab. -/
def isBlank (c : Char) : Bool := c == ' ' || c == '\t'

/-- `cs` without blanks at either end. -/
def trim (cs : List Char) : List Char := ((cs.dropWhile isBlank).reverse.dropWhile isBlank).reverse

/-- The pieces of `cs` between commas, `piece` being the one begun. -/
def splitCommas (piece : List Char) : List Char → List (List Char)
  | [] => [piece.reverse]
  | c :: cs => if c = ',' then piece.reverse :: splitCommas [] cs else splitCommas (c :: piece) cs

/-- The numbers in the text after the name; no text is no operand. -/
def parseOperands (cs : List Char) : Option (List Number) :=
  match trim cs with
  | [] => some []
  | c :: rest => (splitCommas [] (c :: rest)).mapM fun piece => parseNumber (trim piece)

/-- Why a line stands for no command. -/
inductive TextError where
  | unknownName
  | malformedNumber
  /-- The wrong number of operands, or one outside its range: the line has no encoding (R82). -/
  | noEncoding
deriving DecidableEq, Repr

/-- The command a line stands for; `none` for a line that holds nothing but a comment. -/
def assembleLine (line : List Char) : Except TextError (Option Instr) :=
  match trim (line.takeWhile fun c => c != ';') with
  | [] => .ok none
  | c :: cs =>
    match findName ((c :: cs).takeWhile fun d => !isBlank d) names with
    | none => .error .unknownName
    | some t =>
      match parseOperands ((c :: cs).dropWhile fun d => !isBlank d) with
      | none => .error .malformedNumber
      | some ns =>
        match t.assemble ns with
        | none => .error .noEncoding
        | some i => .ok (some i)

end Sys2Proof.Assembly
end

