-- ==== Sys2Proof/Safety.lean ====
section
/-! DEFINITION. What counts as a safe state and a safe run of BH565, in the terms the claims use. -/

namespace Sys2Proof.Machine

open Sys2Proof.Config

/-- The invariant of the machine: the store is in canonical form (so that it stands for 64 cells of 16 bits,
R20), every frame on the wire has exactly 128 bytes (R153), and every response with ILL = 1 has DATA = 0
(R66). -/
structure Inv (s : State) : Prop where
  store : s.pb.wf = true
  frames : ∀ f ∈ s.frames, f.length = FRAMEBYTES
  responses : ∀ r ∈ s.responses, respOk r = true

/-- `k` steps of the machine (R202). -/
def runSteps (k : Nat) (s : State) : Host.Outcome State Fault Refusal := Host.Core.run core k s

/-- The move presents a command word. -/
def HostMove.isCommand : HostMove → Bool
  | .reset => false
  | .command _ _ => true

/-- How many command words the host has still to present. -/
def commandsPending (s : State) : Nat := s.pending.countP HostMove.isCommand

/-- `i` may write cell `k` of `PB`: "never changes `PB` except by INIT, in-range SET, in-range SETCOLOR,
LOADIMG and reset" (R203), SET and SETCOLOR only the cell they name (R51). -/
def Instr.writesCell (i : Instr) (k : Nat) : Bool :=
  match i with
  | .pack _ _ _ => false
  | .unpack _ => false
  | .init => true
  | .get _ _ => false
  | .set x y _ => addresser x y == some k
  | .bounds => false
  | .colorAt _ _ => false
  | .setColor x y _ _ _ _ => addresser x y == some k
  | .loadImg => true
  | .ser => false
  | .serz => false
  | .serImg => false

/-- A host move that may write cell `k` of `PB`; a word that spells no command writes nothing (R78). -/
def HostMove.writesCell (m : HostMove) (k : Nat) : Bool :=
  match m with
  | .reset => true
  | .command c _ =>
    match decode c with
    | .ok i => Instr.writesCell i k
    | .error _ => false

/-- "a claim about a command sequence should take 'every word is legal' as a premise" (R171). -/
def HostMove.legal : HostMove → Bool
  | .reset => true
  | .command c _ =>
    match decode c with
    | .ok _ => true
    | .error _ => false

end Sys2Proof.Machine
end

