-- ==== Sys2Proof/Certificates/Slice0/Obligations.lean ====
section
/-! DEFINITION. The statements for the provers, each about a numbered rule of spec/. They write the spec's numbers
out (masks, slices, `y * 8 + x`, 64, 128), so that a wrong constant of the model makes them false. -/

namespace Sys2Proof.Rules

open Sys2Proof.Machine

/-! ### The spec's own words, written once more and independently of the model -/

/-- "`0 <= x < W` and `0 <= y < H`" (R45). -/
abbrev inBounds (x y : Int) : Prop := 0 ≤ x ∧ x < 8 ∧ 0 ≤ y ∧ y < 8

/-- The cell `(x, y)`: `PB[Idx(x, y)]` (R20). The rules of the commands speak of `Idx` by name, and so do their
statements; its formula, the spec's decision D4, is stated once, in AddresserIsBoundedAndRowMajor. -/
def cell (m : Memory) (x y : Int) : PackedColor := m.readCell (Idx x y)

/-- "As integers: `pack(r, g, b) = (r div 8) * 2048 + (g div 4) * 32 + (b div 8)`" (R90). -/
def packNat (r g b : Nat) : Nat := r / 8 * 2048 + g / 4 * 32 + b / 8

/-- `pack(c[23:16], c[15:8], c[7:0])` of a source pixel, by the integer formula (R90, R134). -/
def packedPixel (c : Pixel) : PackedColor :=
  BitVec.ofNat 16 (packNat (c.toNat / 65536 % 256) (c.toNat / 256 % 256) (c.toNat % 256))

/-- `Src(sx, sy)`, "`sx` the column and `sy` the row" (R70), of an image that is held as rows of pixels: row `sy`, and
in it column `sx`. It does not go through the model's `SourceImage.pixel`. -/
abbrev Src (img : SourceImage) (q : SrcRequest) : Pixel :=
  (img.rows[q.sy.toNat]'q.sy.isLt)[q.sx.toNat]'q.sx.isLt

/-- `0x00 ++ r ++ g ++ b` of `unpack(w)`, by the integer formulas of R93. -/
def unpackNat (w : Nat) : Nat := w / 2048 * 8 * 65536 + w / 32 % 64 * 4 * 256 + w % 32 * 8

/-- The 64 coordinates, row after row, `x` ascending within a row (R134: "y outer", "x inner"). -/
def rowMajor : List SrcRequest :=
  (List.range 64).map fun k => ⟨BitVec.ofNat 3 (k % 8), BitVec.ofNat 3 (k / 8)⟩

/-- The twelve (match, mask) pairs of R75. -/
def table : List (CmdWord × CmdWord) :=
  [ (0x1000000000000000, 0xFFFFFFFFFF000000), (0x2000000000000000, 0xFFFFFFFFFFFF0000),
    (0x3000000000000000, 0xFFFFFFFFFFFFFFFF), (0x4000000000000000, 0xFF000000FFFFFFFF),
    (0x5000000000000000, 0xFF000000FFFF0000), (0x6000000000000000, 0xFFFFFFFFFFFFFFFF) ] ++
  [ (0x7000000000000000, 0xFF000000FFFFFFFF), (0x8000000000000000, 0xFF00000000000000),
    (0x9000000000000000, 0xFFFFFFFFFFFFFFFF), (0xA000000000000000, 0xFFFFFFFFFFFFFFFF),
    (0xB000000000000000, 0xFFFFFFFFFFFFFFFF), (0xC000000000000000, 0xFFFFFFFFFFFFFFFF) ]

/-- `c` spells some command (R75). -/
def spellsCommand (c : CmdWord) : Prop := ∃ row ∈ table, c &&& row.2 = row.1

/-! The text form (R82) -/

/-- The names of R82: the first words of its table and of its pseudo-commands. -/
def textNames : List (String × Assembly.TextOp) :=
  [ ("PACK", .command .pack), ("UNPACK", .command .unpack), ("INIT", .command .init),
    ("GET", .command .get), ("SET", .command .set), ("BOUNDS", .command .bounds),
    ("COLORAT", .command .colorAt), ("SETCOLOR", .command .setColor) ] ++
  [ ("LOADIMG", .command .loadImg), ("SER", .command .ser), ("SERZ", .command .serz),
    ("SERIMG", .command .serImg), ("DRAW", .draw), ("CLEAR", .clear), ("DRAWIMAGE", .drawImage),
    ("SETRGB", .setRgb) ]

/-- The integer a number as written stands for. -/
def signedValue (n : Assembly.Number) : Int :=
  if n.negative then -(n.magnitude : Int) else n.magnitude

/-- `v` is the field of a coordinate written as `n`: its two's-complement value (R63) is the number, so the number is in
`[-2048, 2047]`. -/
def isCoord (n : Assembly.Number) (v : BitVec 12) : Prop := v.toInt = signedValue n

/-- `v` is the field of width `w` of an unsigned operand written as `n`: no `-`, and the number is in `[0, 2 ^ w)`. -/
def isUnsigned {w : Nat} (n : Assembly.Number) (v : BitVec w) : Prop :=
  n.negative = false ∧ v.toNat = n.magnitude

/-- "syntax | encodes" (R82): the name with these operands is encoded as the word `c`. -/
def textEncodes (t : Assembly.TextOp) (ns : List Assembly.Number) (c : CmdWord) : Prop :=
  ∃ i, t.assemble ns = some i ∧ encode i = c

/-- A piece of a line that holds no separator of R82 and no blank. -/
def isPiece (p : List Char) : Prop :=
  p ≠ [] ∧ ∀ c ∈ p, c ≠ ',' ∧ c ≠ ';' ∧ c ≠ ' ' ∧ c ≠ '\t'

/-- "operands separated by commas" (R82), with `k` blanks after each comma. -/
def commaSeparated (k : Nat) (p : List Char) (ps : List (List Char)) : List Char :=
  p ++ ps.flatMap fun q => ',' :: (List.replicate k ' ' ++ q)

end Sys2Proof.Rules

open Sys2Proof Sys2Proof.Machine Sys2Proof.Rules

/-! ### The twelve commands: what a word of each means and what it does

Each has the encoding (exactly which words are the command, and the fields its operands come from) and the
effect: `exec` answers a next state, and the equation of that state says every field of it. The bit positions
of words and responses are the spec's decisions D8 to D12, given in the rules R60 to R75. -/

/-- R92. -/
def Obligations.PackRespondsTheTruncatedWord : Prop :=
  (∀ c : CmdWord, (c &&& 0xFFFFFFFFFF000000 = 0x1000000000000000 →
      decode c = .ok (.pack (c.extractLsb' 16 8) (c.extractLsb' 8 8) (c.extractLsb' 0 8))) ∧
    ((∃ r g b, decode c = .ok (.pack r g b)) → c &&& 0xFFFFFFFFFF000000 = 0x1000000000000000)) ∧
  ∀ (r g b : Byte) (s : State), exec (.pack r g b) s = .next { s with
    responses := s.responses ++ [BitVec.ofNat 33 (packNat r.toNat g.toNat b.toNat)] }

/-- R94; that DATA[31:24] is 0x00 is the spec's decision D12. -/
def Obligations.UnpackRespondsTheShiftedFields : Prop :=
  (∀ c : CmdWord, (c &&& 0xFFFFFFFFFFFF0000 = 0x2000000000000000 →
      decode c = .ok (.unpack (c.extractLsb' 0 16))) ∧
    ((∃ w, decode c = .ok (.unpack w)) → c &&& 0xFFFFFFFFFFFF0000 = 0x2000000000000000)) ∧
  ∀ (w : PackedColor) (s : State), exec (.unpack w) s = .next { s with
    responses := s.responses ++ [BitVec.ofNat 33 (unpackNat w.toNat)] }

/-- R110. -/
def Obligations.InitBlackensEveryCell : Prop :=
  (∀ c : CmdWord, decode c = .ok .init ↔ c = 0x3000000000000000) ∧
  ∀ s : State, ∃ t : State, exec .init s = .next t ∧
    t = { s with pb := t.pb, responses := s.responses ++ [0] } ∧
    (∀ k < 64, t.pb.readCell k = 0) ∧
    (∀ k, 64 ≤ k → t.pb.readCell k = s.pb.readCell k)

/-- R111. -/
def Obligations.GetRespondsTheCellOrZero : Prop :=
  (∀ c : CmdWord, (c &&& 0xFF000000FFFFFFFF = 0x4000000000000000 →
      decode c = .ok (.get (c.extractLsb' 44 12).toInt (c.extractLsb' 32 12).toInt)) ∧
    ((∃ x y, decode c = .ok (.get x y)) → c &&& 0xFF000000FFFFFFFF = 0x4000000000000000)) ∧
  ∀ (x y : Int) (s : State), exec (.get x y) s = .next { s with
    responses := s.responses ++
      [if inBounds x y then BitVec.ofNat 33 (cell s.pb x y).toNat else 0] }

/-- R112. -/
def Obligations.SetWritesTheCellOrNothing : Prop :=
  (∀ c : CmdWord, (c &&& 0xFF000000FFFF0000 = 0x5000000000000000 →
      decode c = .ok (.set (c.extractLsb' 44 12).toInt (c.extractLsb' 32 12).toInt
        (c.extractLsb' 0 16))) ∧
    ((∃ x y w, decode c = .ok (.set x y w)) → c &&& 0xFF000000FFFF0000 = 0x5000000000000000)) ∧
  ∀ (x y : Int) (w : PackedColor) (s : State), ∃ t : State, exec (.set x y w) s = .next t ∧
    t = { s with pb := t.pb, responses := s.responses ++ [0] } ∧
    (inBounds x y → ∀ k, t.pb.readCell k = if k = Idx x y then w else s.pb.readCell k) ∧
    (¬ inBounds x y → t.pb = s.pb)

/-- R130; the layout of the rectangle in DATA is the spec's decision D29. -/
def Obligations.BoundsRespondsTheRectangle : Prop :=
  (∀ c : CmdWord, decode c = .ok .bounds ↔ c = 0x6000000000000000) ∧
  ∀ s : State, exec .bounds s = .next { s with responses := s.responses ++ [0x000000808] }

/-- R132; the alpha numbers 0xFF and 0x00 are the spec's decision D13, from general knowledge (log 14). -/
def Obligations.ColorAtRespondsTheColourOrAbsent : Prop :=
  (∀ c : CmdWord, (c &&& 0xFF000000FFFFFFFF = 0x7000000000000000 →
      decode c = .ok (.colorAt (c.extractLsb' 44 12).toInt (c.extractLsb' 32 12).toInt)) ∧
    ((∃ x y, decode c = .ok (.colorAt x y)) → c &&& 0xFF000000FFFFFFFF = 0x7000000000000000)) ∧
  ∀ (x y : Int) (s : State), exec (.colorAt x y) s = .next { s with
    responses := s.responses ++
      [if inBounds x y then BitVec.ofNat 33 (0xFF000000 + unpackNat (cell s.pb x y).toNat) else 0] }

/-- R133. -/
def Obligations.SetColorWritesTheQuantizedCell : Prop :=
  (∀ c : CmdWord, (c &&& 0xFF00000000000000 = 0x8000000000000000 →
      decode c = .ok (.setColor (c.extractLsb' 44 12).toInt (c.extractLsb' 32 12).toInt
        (c.extractLsb' 24 8) (c.extractLsb' 16 8) (c.extractLsb' 8 8) (c.extractLsb' 0 8))) ∧
    ((∃ x y a r g b, decode c = .ok (.setColor x y a r g b)) →
      c &&& 0xFF00000000000000 = 0x8000000000000000)) ∧
  ∀ (x y : Int) (a r g b : Byte) (s : State), ∃ t : State,
    exec (.setColor x y a r g b) s = .next t ∧
    t = { s with pb := t.pb, responses := s.responses ++ [0] } ∧
    (inBounds x y → ∀ k, t.pb.readCell k = if k = Idx x y
      then BitVec.ofNat 16 (packNat r.toNat g.toNat b.toNat) else s.pb.readCell k) ∧
    (¬ inBounds x y → t.pb = s.pb)

/-- R134, and R42, R70 for which pixel answers a request; the order of the requests, each made once, is the spec's decisions D14 and D15 (log 11). -/
def Obligations.LoadImgQuantizesTheSourceIntoTheStore : Prop :=
  (∀ c : CmdWord, decode c = .ok .loadImg ↔ c = 0x9000000000000000) ∧
  ∀ s : State, ∃ t : State, exec .loadImg s = .next t ∧
    t = { s with
      pb := t.pb, responses := s.responses ++ [0], requests := s.requests ++ rowMajor } ∧
    (∀ q : SrcRequest, cell t.pb q.sx.toNat q.sy.toNat = packedPixel (Src s.src q)) ∧
    (∀ k, 64 ≤ k → t.pb.readCell k = s.pb.readCell k)

/-- R150, R46: the frame and the store at the step of SER. That no later command changes the frame is decision D17,
and is OutputsAreNeverTakenBack. -/
def Obligations.SerEmitsTheStore : Prop :=
  (∀ c : CmdWord, decode c = .ok .ser ↔ c = 0xA000000000000000) ∧
  ∀ s : State, ∃ F : Frame, exec .ser s = .next { s with
      frames := s.frames ++ [F], responses := s.responses ++ [0] } ∧
    F.length = 128 ∧
    ∀ i < 64, F[2 * i]? = some ((s.pb.readCell i).extractLsb' 0 8) ∧
      F[2 * i + 1]? = some ((s.pb.readCell i).extractLsb' 8 8)

/-- R151. -/
def Obligations.SerzEmitsZerosAndKeepsTheStore : Prop :=
  (∀ c : CmdWord, decode c = .ok .serz ↔ c = 0xB000000000000000) ∧
  ∀ s : State, exec .serz s = .next { s with
    frames := s.frames ++ [List.replicate 128 0], responses := s.responses ++ [0] }

/-- R152, and R42, R70 for which pixel answers a request; that SERIMG is a command that leaves the store alone is the spec's decision D31, the order of the
requests D15 (log 11). -/
def Obligations.SerImgEmitsTheQuantizedSource : Prop :=
  (∀ c : CmdWord, decode c = .ok .serImg ↔ c = 0xC000000000000000) ∧
  ∀ s : State, ∃ F : Frame, exec .serImg s = .next { s with
      frames := s.frames ++ [F], responses := s.responses ++ [0],
      requests := s.requests ++ rowMajor } ∧
    F.length = 128 ∧
    ∀ q : SrcRequest,
      F[2 * Idx q.sx.toNat q.sy.toNat]? =
        some ((packedPixel (Src s.src q)).extractLsb' 0 8) ∧
      F[2 * Idx q.sx.toNat q.sy.toNat + 1]? =
        some ((packedPixel (Src s.src q)).extractLsb' 8 8)

/-! ### Frames -/

/-- What a storing command leaves unchanged: every byte outside the two bytes of the cell that the addresser
gives (all of them when it gives none), the image, the host's moves, the frames and the requests. -/
def Obligations.StoringCommandsChangeOnlyTheirCell : Prop :=
  ∀ (x y : Int) (i : Instr) (s t : State),
    ((∃ w, i = .set x y w) ∨ ∃ a r g b, i = .setColor x y a r g b) → exec i s = .next t →
    (∀ k, addresser x y = some k →
      ∀ a, a ≠ 2 * k → a ≠ 2 * k + 1 → t.pb.readByte a = s.pb.readByte a) ∧
    (addresser x y = none → ∀ a, t.pb.readByte a = s.pb.readByte a) ∧
    t.src = s.src ∧ t.pending = s.pending ∧ t.frames = s.frames ∧ t.requests = s.requests ∧
    s.responses <+: t.responses

/-- What the commands that store nothing leave unchanged: every byte of the store, the image, the host's moves;
and the frames, but for the three serializer commands; and the requests, but for SERIMG. -/
def Obligations.OtherCommandsKeepTheStore : Prop :=
  ∀ (i : Instr) (s t : State),
    ((∃ r g b, i = .pack r g b) ∨ (∃ w, i = .unpack w) ∨ (∃ x y, i = .get x y) ∨ i = .bounds ∨
      (∃ x y, i = .colorAt x y) ∨ i = .ser ∨ i = .serz ∨ i = .serImg) → exec i s = .next t →
    (∀ a, t.pb.readByte a = s.pb.readByte a) ∧ t.pb = s.pb ∧
    t.src = s.src ∧ t.pending = s.pending ∧ s.responses <+: t.responses ∧
    (i ≠ .ser → i ≠ .serz → i ≠ .serImg → t.frames = s.frames) ∧
    (i ≠ .serImg → t.requests = s.requests)

/-! ### The step and the host's moves -/

/-- A step runs the decoded command. The step adds: the move is taken and its image is on the source-pixel
port; there is no program counter to advance (R25). The instruction is well-formed. -/
def Obligations.StepRunsTheDecodedCommand : Prop :=
  ∀ (s : State) (c : CmdWord) (img : SourceImage) (rest : List HostMove) (i : Instr),
    s.pending = .command c img :: rest → decode c = .ok i →
    step s = exec i { s with pending := rest, src := img } ∧ i.wellFormed = true

/-- R78, R171: an illegal word is a word that no row of the table matches, and ILLEGAL is its whole effect. That
there are illegal words, and their response, are the spec's decisions D10 and D11; R78 allows a refusal as
well (log 6). -/
def Obligations.IllegalWordOnlyRespondsIllegal : Prop :=
  ∀ (s : State) (c : CmdWord) (img : SourceImage) (rest : List HostMove),
    s.pending = .command c img :: rest → ¬ spellsCommand c →
    step s = .next { s with
      pending := rest, src := img, responses := s.responses ++ [0x100000000] }

/-- Reset between two commands (R190): the store is black, no response and no frame goes out, and the host's
further moves stand. The value of the image on the idle port is the model's choice (log 3) and is not
stated. -/
def Obligations.ResetMoveBlackensTheStore : Prop :=
  ∀ (s : State) (rest : List HostMove), s.pending = .reset :: rest →
    ∃ t : State, step s = .next t ∧ (∀ k, t.pb.readCell k = 0) ∧ t.pending = rest ∧
      t.responses = s.responses ∧ t.frames = s.frames ∧ t.requests = s.requests

/-- With no command presented the block holds its state for ever (R202). That a step of the model then stands
still is the model's reading (log 7). -/
def Obligations.IdleBlockHoldsItsState : Prop :=
  ∀ (s : State) (k : Nat), s.pending = [] → runSteps k s = .next s

/-- R7, R170: no step stops, from any state. -/
def Obligations.EveryStepAnswersANextState : Prop :=
  ∀ s : State, ∃ t : State, step s = .next t

/-- R29, R30, R191: the reset state (that reset is construction is the spec's decision D25). The list that holds the host's moves and the image on the idle port are
the model's own (logs 1 and 3) and are not stated. -/
def Obligations.ResetStateIsBlackAndIdle : Prop :=
  (∀ k < 64, State.reset.pb.readCell k = 0) ∧ (∀ k < 64, blankStore.readCell k = 0) ∧
  State.reset.responses = [] ∧ State.reset.frames = [] ∧ State.reset.requests = []

/-- R192: INIT and reset leave the same store, from every state whose store is canonical. -/
def Obligations.InitLeavesTheResetStore : Prop :=
  ∀ s : State, s.pb.wf = true →
    ∃ t : State, exec .init s = .next t ∧ t.pb = State.reset.pb

/-! ### Encoding -/

/-- The well-formed commands and the legal words are one to one (R65): encode then decode and decode then
encode are both the identity. -/
def Obligations.LegalWordsAndCommandsCorrespond : Prop :=
  (∀ i : Instr, i.wellFormed = true → decode (encode i) = .ok i) ∧
  ∀ (c : CmdWord) (i : Instr), decode c = .ok i → i.wellFormed = true ∧ encode i = c

/-- A word is accepted exactly when it matches a row of the table (R65, R75, R76, R77), and a rejected one is
rejected by the right name: a reserved OP, or a must-be-zero bit (the spec's decisions D9 to D11). -/
def Obligations.DecoderAcceptsExactlyTheTable : Prop :=
  ∀ c : CmdWord,
    (spellsCommand c ↔ ∃ i, decode c = .ok i) ∧
    (decode c = .error .reservedOp ↔
      c.extractLsb' 60 4 = 0x0 ∨ c.extractLsb' 60 4 = 0xD ∨ c.extractLsb' 60 4 = 0xE ∨
        c.extractLsb' 60 4 = 0xF) ∧
    (decode c = .error .mustBeZero ↔
      1 ≤ (c.extractLsb' 60 4).toNat ∧ (c.extractLsb' 60 4).toNat ≤ 12 ∧ ¬ spellsCommand c)

/-- "The twelve (match, mask) pairs are pairwise disjoint" (R75), of the rows the decoder reads, which are the pairs
of the table. -/
def Obligations.TableRowsAreDisjoint : Prop :=
  (∀ (op op' : Opcode) (c : CmdWord), op ≠ op' → op.spelledBy c = true → op'.spelledBy c = false) ∧
  (∀ (op : Opcode) (c : CmdWord), op.spelledBy c = true ↔ c &&& op.mask = op.matchBits) ∧
  table = [Opcode.pack, .unpack, .init, .get, .set, .bounds, .colorAt, .setColor, .loadImg, .ser,
    .serz, .serImg].map fun op => (op.matchBits, op.mask)

/-- Words of spec/95_test_vectors.md and the commands they spell. -/
def Obligations.SpecWordsDecodeToTheirCommands : Prop :=
  decode 0x1000000000123456 = .ok (.pack 0x12 0x34 0x56) ∧
  decode 0x50FFF0010000FFFF = .ok (.set (-1) 1 0xFFFF) ∧
  decode 0x407FF80000000000 = .ok (.get 2047 (-2048)) ∧
  decode 0x8000200280ABCDEF = .ok (.setColor 2 2 0x80 0xAB 0xCD 0xEF) ∧
  decode 0xC000000000000000 = .ok .serImg ∧
  decode 0x4100000000000000 = .error .mustBeZero ∧
  decode 0x0000000000000000 = .error .reservedOp

/-! ### The codec -/

/-- R90: the document's formula, the slices and the integer form are one function. -/
def Obligations.PackFormsAgree : Prop :=
  ∀ r g b : Byte,
    pack r g b = ((r.setWidth 16 >>> 3) <<< 11) ||| ((g.setWidth 16 >>> 2) <<< 5) |||
      (b.setWidth 16 >>> 3) ∧
    (pack r g b).extractLsb' 11 5 = r.extractLsb' 3 5 ∧
    (pack r g b).extractLsb' 5 6 = g.extractLsb' 2 6 ∧
    (pack r g b).extractLsb' 0 5 = b.extractLsb' 3 5 ∧
    (pack r g b).toNat = packNat r.toNat g.toNat b.toNat

/-- R93: the document's formula, the slices and the integer form are one function. -/
def Obligations.UnpackFormsAgree : Prop :=
  ∀ w : PackedColor,
    (unpack w).red = ((w &&& 0xF800) >>> 8).setWidth 8 ∧
    (unpack w).green = ((w &&& 0x07E0) >>> 3).setWidth 8 ∧
    (unpack w).blue = ((w &&& 0x001F) <<< 3).setWidth 8 ∧
    (unpack w).red.toNat = w.toNat / 2048 * 8 ∧
    (unpack w).green.toNat = w.toNat / 32 % 64 * 4 ∧
    (unpack w).blue.toNat = w.toNat % 32 * 8

/-- R91: `pack` floors each channel, so discarded bits have no effect; it is monotone in each channel and onto
(the last two the spec derives from R90). -/
def Obligations.PackTruncates : Prop :=
  (∀ r g b r' g' b' : Byte, pack r g b = pack r' g' b' ↔
    r.toNat / 8 = r'.toNat / 8 ∧ g.toNat / 4 = g'.toNat / 4 ∧ b.toNat / 8 = b'.toNat / 8) ∧
  (∀ r g b r' g' b' : Byte, r ≤ r' → g ≤ g' → b ≤ b' → pack r g b ≤ pack r' g' b') ∧
  (∀ w : PackedColor, ∃ r g b, pack r g b = w) ∧
  pack 7 3 7 = 0 ∧ pack 4 2 4 = 0 ∧ pack 255 255 255 = 0xFFFF

/-- R95: the laws (a) to (d) of the asymmetric pair, which the spec derives from R90 and R93, and the document's
regression value. The triples that survive are the dequantized words, one each: 65536 of them. -/
def Obligations.CodecIsDeliberatelyAsymmetric : Prop :=
  (∀ w : PackedColor, pack (unpack w).red (unpack w).green (unpack w).blue = w) ∧
  (∀ r g b : Byte, unpack (pack r g b) = ⟨r &&& 0xF8, g &&& 0xFC, b &&& 0xF8⟩) ∧
  (∀ r g b : Byte, unpack (pack r g b) = ⟨r, g, b⟩ ↔ r &&& 7 = 0 ∧ g &&& 3 = 0 ∧ b &&& 7 = 0) ∧
  (∀ r g b : Byte, unpack (pack r g b) = ⟨r, g, b⟩ ↔ ∃! w : PackedColor, unpack w = ⟨r, g, b⟩) ∧
  (∀ r g b : Byte,
    r.toNat ≤ (unpack (pack r g b)).red.toNat + 7 ∧ (unpack (pack r g b)).red.toNat ≤ r.toNat ∧
    g.toNat ≤ (unpack (pack r g b)).green.toNat + 3 ∧
      (unpack (pack r g b)).green.toNat ≤ g.toNat ∧
    b.toNat ≤ (unpack (pack r g b)).blue.toNat + 7 ∧
      (unpack (pack r g b)).blue.toNat ≤ b.toNat) ∧
  (∀ r g b : Byte,
    unpack (pack (unpack (pack r g b)).red (unpack (pack r g b)).green (unpack (pack r g b)).blue) =
      unpack (pack r g b)) ∧
  unpack (pack 0xFF 0xFF 0xFF) = ⟨0xF8, 0xFC, 0xF8⟩

/-! ### The addresser, the store and the frame -/

/-- R44, R45: the addresser accepts exactly the rectangle, gives `y * 8 + x`, and the inverse is `i mod 8`,
`i div 8`; on the 12-bit fields the check is `X[11:3] = 0 and Y[11:3] = 0`; `(8, 0)` and `(-1, 1)` do not
alias a cell of another row. The formula is the spec's decision D4, from general knowledge (log 5). -/
def Obligations.AddresserIsBoundedAndRowMajor : Prop :=
  (∀ (x y : Int) (i : Nat), addresser x y = some i ↔ inBounds x y ∧ (i : Int) = y * 8 + x) ∧
  (∀ (x y : Int) (i : Nat), addresser x y = some i → i < 64 ∧ x = i % 8 ∧ y = i / 8) ∧
  (∀ i : Nat, i < 64 → addresser (i % 8 : Nat) (i / 8 : Nat) = some i) ∧
  (∀ X Y : BitVec 12, (∃ i, addresser X.toInt Y.toInt = some i) ↔
    X.extractLsb' 3 9 = 0 ∧ Y.extractLsb' 3 9 = 0) ∧
  (∀ (X Y : BitVec 12) (i : Nat), addresser X.toInt Y.toInt = some i →
    BitVec.ofNat 6 i = Y.extractLsb' 0 3 ++ X.extractLsb' 0 3) ∧
  addresser 8 0 = none ∧ addresser (-1) 1 = none

/-- R46, R153: the frame of a store has 128 bytes, the low byte of cell `k div 2` at even `k`, its high byte at
odd `k`. -/
def Obligations.FrameIsLittleEndianRowMajor : Prop :=
  ∀ P : Memory, (serFrame P).length = 128 ∧
    ∀ k < 128, (serFrame P)[k]? = some
      (if k % 2 = 0 then (P.readCell (k / 2)).extractLsb' 0 8
        else (P.readCell (k / 2)).extractLsb' 8 8)

/-- R154: writing one cell changes at most its own two bytes of the frame, and the byte at `2i + j` changes
exactly when that byte of the cell does (the spec derives this from R46). -/
def Obligations.OneCellIsTwoBytesOfTheFrame : Prop :=
  ∀ (P Q : Memory) (i : Nat), i < 64 → (∀ k < 64, k ≠ i → P.readCell k = Q.readCell k) →
    (∀ k, k ≠ 2 * i → k ≠ 2 * i + 1 → (serFrame P)[k]? = (serFrame Q)[k]?) ∧
    ((serFrame P)[2 * i]? = (serFrame Q)[2 * i]? ↔
      (P.readCell i).extractLsb' 0 8 = (Q.readCell i).extractLsb' 0 8) ∧
    ((serFrame P)[2 * i + 1]? = (serFrame Q)[2 * i + 1]? ↔
      (P.readCell i).extractLsb' 8 8 = (Q.readCell i).extractLsb' 8 8)

/-- R47, R52: the even byte of a cell holds the lower three bits of green and the blue field, the odd byte the red
field and the upper three bits of green. -/
def Obligations.FrameBytesHoldTheColourFields : Prop :=
  ∀ (P : Memory) (r : BitVec 5) (g : BitVec 6) (b : BitVec 5) (i : Nat), i < 64 →
    P.readCell i = r ++ g ++ b →
    (serFrame P)[2 * i]? = some (g.extractLsb' 0 3 ++ b) ∧
    (serFrame P)[2 * i + 1]? = some (r ++ g.extractLsb' 3 3)

/-- R155: the document's positioned scenario, for any two packed words in the corners. -/
def Obligations.CornersGoToTheEndsOfTheFrame : Prop :=
  ∀ (s : State) (v w : PackedColor), ∃ (t u q : State) (F : Frame),
    exec .init s = .next t ∧ exec (.set 0 0 v) t = .next u ∧ exec (.set 7 7 w) u = .next q ∧
    exec .ser q = .next { q with frames := q.frames ++ [F], responses := q.responses ++ [0] } ∧
    F.length = 128 ∧
    F[0]? = some (v.extractLsb' 0 8) ∧ F[1]? = some (v.extractLsb' 8 8) ∧
    F[126]? = some (w.extractLsb' 0 8) ∧ F[127]? = some (w.extractLsb' 8 8) ∧
    ∀ k, 2 ≤ k → k < 126 → F[k]? = some 0

/-- R113: the exact law of SET and GET inside the bounds. -/
def Obligations.SetThenGetIsExact : Prop :=
  ∀ (x y : Int) (v : PackedColor) (s : State), inBounds x y →
    ∃ t : State, exec (.set x y v) s = .next t ∧
      exec (.get x y) t = .next { t with
        responses := t.responses ++ [BitVec.ofNat 33 v.toNat] } ∧
      ∀ x' y' : Int, inBounds x' y' → (x', y') ≠ (x, y) → ∃ r : RespWord,
        exec (.get x' y') s = .next { s with responses := s.responses ++ [r] } ∧
        exec (.get x' y') t = .next { t with responses := t.responses ++ [r] }

/-- R114, R137: outside the bounds GET responds zero, COLORAT the absent colour, and SET and SETCOLOR change no
cell; R49: none of them stops. -/
def Obligations.OutOfRangeReadsDefaultAndWritesNothing : Prop :=
  ∀ (x y : Int) (s : State), ¬ inBounds x y →
    exec (.get x y) s = .next { s with responses := s.responses ++ [0] } ∧
    exec (.colorAt x y) s = .next { s with responses := s.responses ++ [0] } ∧
    (∀ v, exec (.set x y v) s = .next { s with responses := s.responses ++ [0] }) ∧
    ∀ a r g b, exec (.setColor x y a r g b) s = .next { s with responses := s.responses ++ [0] }

/-- R136: the wide-colour round trip, which the spec derives from R95, R132 and R133, the other cells, and the
document's uniform white image; the alpha 0xFF is the spec's decision D13 (log 14). -/
def Obligations.WideColourRoundTripIsLossy : Prop :=
  (∀ (x y : Int) (a r g b : Byte) (s : State), inBounds x y →
    ∃ t : State, exec (.setColor x y a r g b) s = .next t ∧
      exec (.colorAt x y) t = .next { t with responses := t.responses ++
        [(0 : BitVec 1) ++ (0xFF : Byte) ++ (r &&& 0xF8) ++ (g &&& 0xFC) ++ (b &&& 0xF8)] } ∧
      ∀ x' y' : Int, (x', y') ≠ (x, y) → ∃ d : RespWord,
        exec (.colorAt x' y') s = .next { s with responses := s.responses ++ [d] } ∧
        exec (.colorAt x' y') t = .next { t with responses := t.responses ++ [d] }) ∧
  ∀ s : State, (∀ q, s.src.pixel q = 0xFFFFFFFF) →
    ∃ t : State, exec .loadImg s = .next t ∧
      ∀ x y : Int, inBounds x y →
        exec (.colorAt x y) t = .next { t with responses := t.responses ++ [0x0FFF8FCF8] }

/-- R51: repeating a write leaves the same store; a read repeated responds the same. The store is canonical, so
that equal contents are equal data. -/
def Obligations.WritesAreIdempotent : Prop :=
  ∀ (i : Instr) (s t u : State), s.pb.wf = true → exec i s = .next t → exec i t = .next u →
    u.pb = t.pb ∧ ((∃ x y, i = .get x y ∨ i = .colorAt x y) →
      ∃ r, t.responses = s.responses ++ [r] ∧ u.responses = t.responses ++ [r])

/-! ### The bulk commands -/

/-- R134: "the result is as if 64 SETCOLOR commands had run, one per cell": as equal data, from every state. -/
def Obligations.LoadImgIsSixtyFourSetColors : Prop :=
  ∀ s : State, ∃ t : State, exec .loadImg s = .next t ∧
    t.pb = (rowMajor.foldl (fun u q =>
      match exec (.setColor q.sx.toNat q.sy.toNat ((s.src.pixel q).extractLsb' 24 8)
        ((s.src.pixel q).extractLsb' 16 8) ((s.src.pixel q).extractLsb' 8 8)
        ((s.src.pixel q).extractLsb' 0 8)) u with
      | .next v => v
      | .fault _ => u
      | .refused _ => u) s).pb

/-- R152: SERIMG emits the frame that LOADIMG and then SER would emit from the same image, and leaves the store
alone. -/
def Obligations.SerImgEqualsLoadImgThenSer : Prop :=
  ∀ s : State, ∃ (t u v : State) (F : Frame),
    exec .loadImg s = .next t ∧ exec .ser t = .next u ∧ exec .serImg s = .next v ∧
    u.frames = s.frames ++ [F] ∧ v.frames = s.frames ++ [F] ∧ v.pb = s.pb ∧
    v.requests = t.requests

/-- R97, R133, R134: no alpha reaches the store or the wire. -/
def Obligations.AlphaIsDiscarded : Prop :=
  (∀ (x y : Int) (a a' r g b : Byte) (s : State),
    exec (.setColor x y a r g b) s = exec (.setColor x y a' r g b) s) ∧
  ∀ (s s' t t' : State) (i : Instr), i = .loadImg ∨ i = .serImg →
    s' = { s with src := s'.src } →
    (∀ q, (s.src.pixel q).extractLsb' 0 24 = (s'.src.pixel q).extractLsb' 0 24) →
    exec i s = .next t → exec i s' = .next t' → t' = { t with src := s'.src }

/-! ### The whole machine -/

/-- Every step keeps the invariant: a canonical store, whole frames, and DATA = 0 in an ILLEGAL response. -/
def Obligations.EveryStepKeepsTheInvariant : Prop :=
  ∀ s t : State, Inv s → step s = .next t → Inv t

/-- The invariant holds at reset. -/
def Obligations.InvariantHoldsAtReset : Prop := Inv State.reset

/-- R66 (the spec's decision D12): every command produces exactly one response, with ILL = 1 exactly for a word that spells no command
and then with DATA = 0. -/
def Obligations.EveryCommandRespondsOnce : Prop :=
  ∀ (s : State) (c : CmdWord) (img : SourceImage) (rest : List HostMove),
    s.pending = .command c img :: rest →
    ∃ (t : State) (r : RespWord), step s = .next t ∧ t.pending = rest ∧
      t.responses = s.responses ++ [r] ∧
      (r.getLsbD 32 = true ↔ ¬ spellsCommand c) ∧
      (r.getLsbD 32 = true → r.extractLsb' 0 32 = 0)

/-- R72: SER, SERZ and SERIMG put exactly one frame of 128 bytes on the wire, in increasing offset order; no other
command puts anything there. -/
def Obligations.OnlySerializersUseTheWire : Prop :=
  ∀ (i : Instr) (s t : State), exec i s = .next t →
    if i = .ser ∨ i = .serz ∨ i = .serImg then
      ∃ F : Frame, t.frames = s.frames ++ [F] ∧ F.length = 128 ∧
        (wireBytes t).map Prod.snd = (wireBytes s).map Prod.snd ++ F
    else t.frames = s.frames ∧ wireBytes t = wireBytes s

/-- R73 (the spec's decision D16): when every frame is whole, byte `n` on the wire has the 7-bit offset
`n mod 128`, and is byte `n mod 128` of frame `n div 128`: frames are whole and never interleaved. -/
def Obligations.WireBytesCarryTheirOffsets : Prop :=
  ∀ s : State, (∀ f ∈ s.frames, f.length = 128) →
    (wireBytes s).length = s.frames.length * 128 ∧
    ∀ n < s.frames.length * 128,
      (wireBytes s)[n]? = some (BitVec.ofNat 7 (n % 128), (s.frames.getD (n / 128) []).getD (n % 128) 0)

/-- R203: only INIT, in-range SET, in-range SETCOLOR, LOADIMG and reset change a cell, SET and SETCOLOR only the
one they name; only LOADIMG and SERIMG read the source; and nothing goes out without a command. -/
def Obligations.OnlyNamedMovesTouchEachPort : Prop :=
  ∀ s t : State, step s = .next t →
    (∀ k < 64, t.pb.readCell k ≠ s.pb.readCell k →
      ∃ m ∈ s.pending.head?, m.writesCell k = true) ∧
    (t.requests ≠ s.requests → ∃ c img, s.pending.head? = some (.command c img) ∧
      (c = 0x9000000000000000 ∨ c = 0xC000000000000000)) ∧
    (t.frames ≠ s.frames → ∃ c img, s.pending.head? = some (.command c img) ∧
      (c = 0xA000000000000000 ∨ c = 0xB000000000000000 ∨ c = 0xC000000000000000)) ∧
    (t.responses ≠ s.responses → ∃ c img, s.pending.head? = some (.command c img))

/-- What has gone out never changes: a step only adds to the responses, the frames and the requests. For a frame this
is the spec's decision D17 (R50, R150); that the outputs stand in lists that grow is log 2 (R66, R202), and that
they stand through a reset move is log 8. -/
def Obligations.OutputsAreNeverTakenBack : Prop :=
  ∀ (k : Nat) (s t : State), runSteps k s = .next t →
    s.responses <+: t.responses ∧ s.frames <+: t.frames ∧ s.requests <+: t.requests

/-- R20: PACK, UNPACK, BOUNDS, SERZ and SERIMG neither read nor write the store: with another store they answer
alike and leave that store. -/
def Obligations.StoreFreeCommandsIgnoreTheStore : Prop :=
  ∀ (i : Instr) (s t : State) (m : Memory),
    ((∃ r g b, i = .pack r g b) ∨ (∃ w, i = .unpack w) ∨ i = .bounds ∨ i = .serz ∨ i = .serImg) →
    exec i s = .next t → exec i { s with pb := m } = .next { t with pb := m }

/-- R70: commands other than LOADIMG and SERIMG ignore the source image. -/
def Obligations.SourceImageIsReadOnlyByBulkCommands : Prop :=
  ∀ (i : Instr) (s t : State) (img : SourceImage), i ≠ .loadImg → i ≠ .serImg →
    exec i s = .next t → exec i { s with src := img } = .next { t with src := img }

/-- R23(d): nothing of an earlier command's image reaches a later command: the step presents the command's own
image. (That the field keeps its value between two commands is the model's choice, log 3.) -/
def Obligations.EarlierImageDoesNotReachALaterCommand : Prop :=
  ∀ (s : State) (img : SourceImage), s.pending ≠ [] → step { s with src := img } = step s

/-- R53(a): a read sees the last write. Through any run whose moves do not write cell `(x, y)`, the cell keeps its
value, and a GET then responds it. -/
def Obligations.LastWriteIsReadBack : Prop :=
  ∀ (x y : Int) (v : PackedColor) (s : State) (k : Nat), inBounds x y →
    (∀ m ∈ s.pending.take k, m.writesCell (Idx x y) = false) →
    ∃ s' t' : State, exec (.set x y v) s = .next s' ∧ runSteps k s' = .next t' ∧
      exec (.get x y) t' = .next { t' with
        responses := t'.responses ++ [BitVec.ofNat 33 v.toNat] }

/-- R202, R7, R171: a run of as many steps as the host has moves takes them all, gives one response for each
command, and, when every word is legal, no ILLEGAL one among them. The moves are a list (log 1); that LOADIMG and
SERIMG complete rests on a source that answers every request (U6, log 3). -/
def Obligations.RunAnswersEveryCommand : Prop :=
  ∀ s : State, ∃ (t : State) (rs : List RespWord),
    runSteps s.pending.length s = .next t ∧ t.pending = [] ∧
    t.responses = s.responses ++ rs ∧ rs.length = commandsPending s ∧
    ((∀ m ∈ s.pending, m.legal = true) → ∀ r ∈ rs, r.getLsbD 32 = false)

/-! ### The text form -/

/-- R82: the pseudo-commands are their commands with fixed operands. Their spellings are in
OperandRangesAndNamesAreThoseOfTheText. -/
def Obligations.PseudoCommandsAreTheirCommands : Prop :=
  (∀ ns, Assembly.TextOp.draw.assemble ns = (Assembly.TextOp.command .ser).assemble ns) ∧
  (∀ ns, Assembly.TextOp.clear.assemble ns = (Assembly.TextOp.command .serz).assemble ns) ∧
  (∀ ns, Assembly.TextOp.drawImage.assemble ns = (Assembly.TextOp.command .serImg).assemble ns) ∧
  ∀ x y r g b : Assembly.Number, Assembly.TextOp.setRgb.assemble [x, y, r, g, b] =
    (Assembly.TextOp.command .setColor).assemble [x, y, ⟨false, 255⟩, r, g, b]

/-- R82: an assembled line has an encoding, and the word decodes to the command of the line. -/
def Obligations.AssembledLinesEncode : Prop :=
  ∀ (line : List Char) (i : Instr), Assembly.assembleLine line = .ok (some i) →
    i.wellFormed = true ∧ decode (encode i) = .ok i

/-- R82: the ranges of operands, and the names. "`x`, `y` in `[-2048, 2047]`; `a`, `r`, `g`, `b` in `[0, 255]`; `w` in
`[0, 65535]`": a number is taken exactly in its range, as itself; and the names are the sixteen spellings. -/
def Obligations.OperandRangesAndNamesAreThoseOfTheText : Prop :=
  (∀ (n : Assembly.Number) (v : Byte), n.channel = some v ↔
    n.negative = false ∧ n.magnitude < 256 ∧ v.toNat = n.magnitude) ∧
  (∀ (n : Assembly.Number) (v : PackedColor), n.word = some v ↔
    n.negative = false ∧ n.magnitude < 65536 ∧ v.toNat = n.magnitude) ∧
  (∀ (n : Assembly.Number) (v : Int), n.coord = some v ↔
    v = signedValue n ∧ -2048 ≤ v ∧ v ≤ 2047) ∧
  ∀ (cs : List Char) (t : Assembly.TextOp), Assembly.findName cs Assembly.names = some t ↔
    ∃ row ∈ textNames, row.1.toList = cs ∧ row.2 = t

/-- R82, the table "syntax | encodes" and the pseudo-commands, row by row: the word of a name with operands holds each
operand, as the number it is, in the field R82 names and zeros elsewhere; and with another number of operands, or an
operand outside its range, there is no word. -/
def Obligations.TextEncodesItsOperands : Prop :=
  ∀ (ns : List Assembly.Number) (c : CmdWord),
    (textEncodes (.command .pack) ns c ↔ ∃ nr ng nb, ∃ r g b : Byte, ns = [nr, ng, nb] ∧
      isUnsigned nr r ∧ isUnsigned ng g ∧ isUnsigned nb b ∧
      c = (0x1 : BitVec 4) ++ (0 : BitVec 36) ++ r ++ g ++ b) ∧
    (textEncodes (.command .unpack) ns c ↔ ∃ nw, ∃ w : PackedColor, ns = [nw] ∧
      isUnsigned nw w ∧ c = (0x2 : BitVec 4) ++ (0 : BitVec 44) ++ w) ∧
    (textEncodes (.command .init) ns c ↔ ns = [] ∧ c = 0x3000000000000000) ∧
    (textEncodes (.command .get) ns c ↔ ∃ nx ny, ∃ x y : BitVec 12, ns = [nx, ny] ∧
      isCoord nx x ∧ isCoord ny y ∧ c = (0x40 : BitVec 8) ++ x ++ y ++ (0 : BitVec 32)) ∧
    (textEncodes (.command .set) ns c ↔ ∃ nx ny nw, ∃ x y : BitVec 12, ∃ w : PackedColor,
      ns = [nx, ny, nw] ∧ isCoord nx x ∧ isCoord ny y ∧ isUnsigned nw w ∧
      c = (0x50 : BitVec 8) ++ x ++ y ++ (0 : BitVec 16) ++ w) ∧
    (textEncodes (.command .bounds) ns c ↔ ns = [] ∧ c = 0x6000000000000000) ∧
    (textEncodes (.command .colorAt) ns c ↔ ∃ nx ny, ∃ x y : BitVec 12, ns = [nx, ny] ∧
      isCoord nx x ∧ isCoord ny y ∧ c = (0x70 : BitVec 8) ++ x ++ y ++ (0 : BitVec 32)) ∧
    (textEncodes (.command .setColor) ns c ↔ ∃ nx ny na nr ng nb, ∃ x y : BitVec 12,
      ∃ a r g b : Byte, ns = [nx, ny, na, nr, ng, nb] ∧ isCoord nx x ∧ isCoord ny y ∧
      isUnsigned na a ∧ isUnsigned nr r ∧ isUnsigned ng g ∧ isUnsigned nb b ∧
      c = (0x80 : BitVec 8) ++ x ++ y ++ a ++ r ++ g ++ b) ∧
    (textEncodes (.command .loadImg) ns c ↔ ns = [] ∧ c = 0x9000000000000000) ∧
    (textEncodes (.command .ser) ns c ↔ ns = [] ∧ c = 0xA000000000000000) ∧
    (textEncodes (.command .serz) ns c ↔ ns = [] ∧ c = 0xB000000000000000) ∧
    (textEncodes (.command .serImg) ns c ↔ ns = [] ∧ c = 0xC000000000000000) ∧
    (textEncodes .draw ns c ↔ ns = [] ∧ c = 0xA000000000000000) ∧
    (textEncodes .clear ns c ↔ ns = [] ∧ c = 0xB000000000000000) ∧
    (textEncodes .drawImage ns c ↔ ns = [] ∧ c = 0xC000000000000000) ∧
    (textEncodes .setRgb ns c ↔ ∃ nx ny nr ng nb, ∃ x y : BitVec 12, ∃ r g b : Byte,
      ns = [nx, ny, nr, ng, nb] ∧ isCoord nx x ∧ isCoord ny y ∧
      isUnsigned nr r ∧ isUnsigned ng g ∧ isUnsigned nb b ∧
      c = (0x80 : BitVec 8) ++ x ++ y ++ (0xFF : Byte) ++ r ++ g ++ b)

/-- "numbers decimal (with an optional leading `-` for coordinates) or `0x` hexadecimal" (R82), with any number of
leading zeros. That hexadecimal letters may be of either case is the model's choice (log 16). -/
def Obligations.NumbersAreDecimalOrHexadecimal : Prop :=
  ∀ n k : Nat,
    Assembly.parseNumber (List.replicate k '0' ++ Nat.toDigits 10 n) = some ⟨false, n⟩ ∧
    Assembly.parseNumber ('-' :: (List.replicate k '0' ++ Nat.toDigits 10 n)) = some ⟨true, n⟩ ∧
    Assembly.parseNumber ('0' :: 'x' :: (List.replicate k '0' ++ Nat.toDigits 16 n)) =
      some ⟨false, n⟩ ∧
    Assembly.parseNumber
      ('0' :: 'x' :: (List.replicate k '0' ++ (Nat.toDigits 16 n).map Char.toUpper)) =
      some ⟨false, n⟩

/-- "One command per line; operands separated by commas; [...] `;` starts a comment" (R82): a line is a name, with the
operands after it, and what follows a `;` changes nothing. That the name stands in capitals, is followed by a blank
and that blanks may follow a comma is the model's choice (log 16). -/
def Obligations.LinesAreANameOperandsAndAComment : Prop :=
  (∀ line comment : List Char,
    Assembly.assembleLine (line ++ ';' :: comment) = Assembly.assembleLine line) ∧
  ∀ row ∈ textNames, ∀ i : Instr,
    (Assembly.assembleLine row.1.toList = .ok (some i) ↔ row.2.assemble [] = some i) ∧
    ∀ (k : Nat) (p : List Char) (ps : List (List Char)) (ns : List Assembly.Number),
      (∀ q ∈ p :: ps, isPiece q) → (p :: ps).mapM Assembly.parseNumber = some ns →
      (Assembly.assembleLine (row.1.toList ++ ' ' :: commaSeparated k p ps) = .ok (some i) ↔
        row.2.assemble ns = some i)
end

