-- ==== Sys2Proof/Laws/Memory.lean ====
section
/-! SUPPORT. The laws of the pixel store: what a byte or a cell reads as after a write, and that every
operation keeps the canonical form. The read laws hold of every list, canonical or not. -/

namespace Sys2Proof.Machine

open Sys2Proof.Config

theorem NCELL_eq : NCELL = 64 := rfl
theorem FRAMEBYTES_eq : FRAMEBYTES = 128 := rfl

/-! ### Reading after writing, by bytes -/

@[simp] theorem readByte_nil (a : Nat) : Memory.readByte [] a = 0 := rfl

theorem readByte_cons (c : Host.Cell) (m : Memory) (a : Nat) :
    Memory.readByte (c :: m) a = if c.1 = a then c.2 else Memory.readByte m a := rfl

theorem readByte_eraseByte (m : Memory) (a k : Nat) :
    (m.eraseByte a).readByte k = if k = a then 0 else m.readByte k := by
  induction m with
  | nil => simp [Memory.eraseByte]
  | cons c m ih =>
    simp only [Memory.eraseByte] at ih ⊢
    by_cases hc : c.1 = a
    · rw [List.filter_cons_of_neg (by simp [hc]), ih, readByte_cons]
      by_cases hk : k = a
      · simp [hk]
      · simp [hk, show c.1 ≠ k from fun h => hk (h ▸ hc)]
    · rw [List.filter_cons_of_pos (by simp [hc]), readByte_cons, readByte_cons, ih]
      by_cases hk : c.1 = k
      · simp [hk, show k ≠ a from fun h => hc (hk.trans h)]
      · simp [hk]

theorem readByte_insertByte (m : Memory) (a : Nat) (b : Byte) (k : Nat)
    (h : ∀ c ∈ m, c.1 ≠ a) :
    (m.insertByte a b).readByte k = if k = a then b else m.readByte k := by
  induction m with
  | nil => simp [Memory.insertByte, readByte_cons, eq_comm]
  | cons c m ih =>
    have hc : c.1 ≠ a := h c (by simp)
    unfold Memory.insertByte
    split
    · simp [readByte_cons, eq_comm]
    · rw [readByte_cons, readByte_cons, ih fun d hd => h d (by simp [hd])]
      by_cases hk : c.1 = k
      · simp [hk, show k ≠ a from fun e => hc (hk.trans e)]
      · simp [hk]

theorem eraseByte_ne (m : Memory) (a : Nat) : ∀ c ∈ m.eraseByte a, c.1 ≠ a := by
  simp [Memory.eraseByte]

/-- A write changes the byte it names and no other. -/
theorem readByte_writeByte (m : Memory) (a : Nat) (b : Byte) (k : Nat) :
    (m.writeByte a b).readByte k = if k = a then b else m.readByte k := by
  unfold Memory.writeByte
  split
  · rename_i h
    rw [readByte_eraseByte, h]; rfl
  · rw [readByte_insertByte _ _ _ _ (eraseByte_ne m a), readByte_eraseByte]
    split <;> simp_all

/-! ### Reading after writing, by cells -/

@[simp] theorem readCell_nil (i : Nat) : Memory.readCell [] i = 0 := by
  simp [Memory.readCell]

/-- Bit `k` of a cell made of a high and a low byte. -/
theorem getLsbD_cellOfBytes (h l : Byte) (k : Nat) :
    (h ++ l : PackedColor).getLsbD k = if k < 8 then l.getLsbD k else h.getLsbD (k - 8) :=
  BitVec.getLsbD_append

theorem highByte_append_lowByte (v : PackedColor) : highByte v ++ lowByte v = v := by
  refine BitVec.eq_of_getLsbD_eq fun i hi => ?_
  rw [getLsbD_cellOfBytes, lowByte, highByte, BitVec.getLsbD_extractLsb', BitVec.getLsbD_extractLsb']
  split
  · simp_all
  · simp [show i - 8 < 8 by omega, show 8 + (i - 8) = i by omega]

/-- A cell write by bytes: the two bytes of the cell, and no other. -/
theorem readByte_writeCell (m : Memory) (i : Nat) (v : PackedColor) (k : Nat) :
    (m.writeCell i v).readByte k =
      if k = 2 * i then lowByte v else if k = 2 * i + 1 then highByte v else m.readByte k := by
  rw [Memory.writeCell, readByte_writeByte, readByte_writeByte]
  split <;> split <;> first | rfl | omega

/-- A cell write changes the cell it names and no other (R51). -/
theorem readCell_writeCell (m : Memory) (i : Nat) (v : PackedColor) (k : Nat) :
    (m.writeCell i v).readCell k = if k = i then v else m.readCell k := by
  rw [Memory.readCell, readByte_writeCell, readByte_writeCell]
  by_cases h : k = i
  · subst h
    simp [highByte_append_lowByte]
  · simp only [h, if_false, Memory.readCell,
      show ¬ 2 * k + 1 = 2 * i by omega, show ¬ 2 * k + 1 = 2 * i + 1 by omega,
      show ¬ 2 * k = 2 * i by omega, show ¬ 2 * k = 2 * i + 1 by omega]

@[simp] theorem lowByte_readCell (m : Memory) (i : Nat) :
    lowByte (m.readCell i) = m.readByte (2 * i) := by
  refine BitVec.eq_of_getLsbD_eq fun k hk => ?_
  rw [lowByte, Memory.readCell, BitVec.getLsbD_extractLsb', getLsbD_cellOfBytes]
  simp [hk]

@[simp] theorem highByte_readCell (m : Memory) (i : Nat) :
    highByte (m.readCell i) = m.readByte (2 * i + 1) := by
  refine BitVec.eq_of_getLsbD_eq fun k hk => ?_
  rw [highByte, Memory.readCell, BitVec.getLsbD_extractLsb', getLsbD_cellOfBytes]
  simp [hk]

/-! ### The canonical form -/

theorem wf_iff (m : Memory) :
    m.wf = true ↔ m.Pairwise (fun c d => c.1 < d.1) ∧ ∀ c ∈ m, c.1 < FRAMEBYTES ∧ c.2 ≠ 0 := by
  simp [Memory.wf, unlistedByte, List.all_eq_true]

@[simp] theorem wf_nil : Memory.wf [] = true := by decide

theorem eraseByte_wf {m : Memory} (h : m.wf = true) (a : Nat) : (m.eraseByte a).wf = true := by
  rw [wf_iff] at h ⊢
  exact ⟨h.1.filter _, fun c hc => h.2 c (List.mem_of_mem_filter hc)⟩

theorem mem_insertByte {m : Memory} {a : Nat} {b : Byte} {c : Host.Cell} :
    c ∈ m.insertByte a b ↔ c = (a, b) ∨ c ∈ m := by
  induction m with
  | nil => simp [Memory.insertByte]
  | cons d m ih =>
    unfold Memory.insertByte
    split <;> simp [ih, or_left_comm]

theorem insertByte_wf {m : Memory} (h : m.wf = true) {a : Nat} {b : Byte} (ha : a < FRAMEBYTES)
    (hb : b ≠ 0) (hne : ∀ c ∈ m, c.1 ≠ a) : (m.insertByte a b).wf = true := by
  rw [wf_iff] at h ⊢
  refine ⟨?_, fun c hc => ?_⟩
  · obtain ⟨hs, -⟩ := h
    induction m with
    | nil => simp [Memory.insertByte]
    | cons d m ih =>
      have hd : d.1 ≠ a := hne d (by simp)
      have hs' := List.pairwise_cons.1 hs
      unfold Memory.insertByte
      split
      · rename_i had
        refine List.pairwise_cons.2 ⟨fun c hc => ?_, hs⟩
        rcases List.mem_cons.1 hc with rfl | hc
        · exact had
        · exact had.trans (hs'.1 c hc)
      · refine List.pairwise_cons.2 ⟨fun c hc => ?_, ih (fun c hc => hne c (by simp [hc])) hs'.2⟩
        rcases mem_insertByte.1 hc with rfl | hc
        · simp; omega
        · exact hs'.1 c hc
  · rcases mem_insertByte.1 hc with rfl | hc
    · exact ⟨ha, hb⟩
    · exact h.2 c hc

theorem writeByte_wf {m : Memory} (h : m.wf = true) {a : Nat} (ha : a < FRAMEBYTES) (b : Byte) :
    (m.writeByte a b).wf = true := by
  unfold Memory.writeByte
  split
  · exact eraseByte_wf h a
  · exact insertByte_wf (eraseByte_wf h a) ha ‹_› (eraseByte_ne m a)

theorem writeCell_wf {m : Memory} (h : m.wf = true) {i : Nat} (hi : i < NCELL) (v : PackedColor) :
    (m.writeCell i v).wf = true := by
  rw [NCELL_eq] at hi
  exact writeByte_wf (writeByte_wf h (by rw [FRAMEBYTES_eq]; omega) _) (by rw [FRAMEBYTES_eq]; omega) _

/-! ### Extensionality: a canonical store is its bytes -/

theorem readByte_eq_zero_of_lt {m : Memory} {a : Nat} (h : ∀ c ∈ m, a < c.1) : m.readByte a = 0 := by
  induction m with
  | nil => rfl
  | cons c m ih =>
    have := h c (by simp)
    rw [readByte_cons, if_neg (by omega), ih fun d hd => h d (by simp [hd])]

/-- Two canonical stores that read alike at every offset are equal. -/
theorem wf_ext_all {m n : Memory} (hm : m.wf = true) (hn : n.wf = true)
    (h : ∀ a, m.readByte a = n.readByte a) : m = n := by
  rw [wf_iff] at hm hn
  induction m generalizing n with
  | nil =>
    cases n with
    | nil => rfl
    | cons d n =>
      have := h d.1
      rw [readByte_cons, if_pos rfl] at this
      exact absurd this.symm (hn.2 d (by simp)).2
  | cons c m ih =>
    have hc := (hm.2 c (by simp)).2
    obtain ⟨hms, hmt⟩ := List.pairwise_cons.1 hm.1
    cases n with
    | nil =>
      have := h c.1
      rw [readByte_cons, if_pos rfl] at this
      exact absurd this hc
    | cons d n =>
      have hd := (hn.2 d (by simp)).2
      obtain ⟨hns, hnt⟩ := List.pairwise_cons.1 hn.1
      have hcd : c.1 = d.1 := by
        rcases lt_trichotomy c.1 d.1 with hlt | heq | hgt
        · have := h c.1
          rw [readByte_cons, if_pos rfl, readByte_cons, if_neg (by omega),
            readByte_eq_zero_of_lt fun e he => hlt.trans (hns e he)] at this
          exact absurd this hc
        · exact heq
        · have := h d.1
          rw [readByte_cons, if_neg (by omega), readByte_cons, if_pos rfl,
            readByte_eq_zero_of_lt fun e he => hgt.trans (hms e he)] at this
          exact absurd this.symm hd
      have hval : c.2 = d.2 := by
        have := h c.1
        rwa [readByte_cons, if_pos rfl, readByte_cons, if_pos hcd.symm] at this
      have htail : m = n := by
        refine ih ⟨hmt, fun e he => hm.2 e (by simp [he])⟩ ⟨hnt, fun e he => hn.2 e (by simp [he])⟩
          fun a => ?_
        have ha := h a
        rw [readByte_cons, readByte_cons, ← hcd] at ha
        by_cases hca : c.1 = a
        · rw [readByte_eq_zero_of_lt (m := m) fun e he => hca ▸ hms e he,
            readByte_eq_zero_of_lt (m := n) fun e he => by have := hns e he; omega]
        · simpa [hca] using ha
      rw [htail, Prod.ext hcd hval]

theorem readByte_eq_zero_of_ge {m : Memory} (hm : m.wf = true) {a : Nat} (ha : FRAMEBYTES ≤ a) :
    m.readByte a = 0 := by
  have hb := ((wf_iff m).1 hm).2
  clear hm
  induction m with
  | nil => rfl
  | cons c m ih =>
    have := (hb c (by simp)).1
    rw [readByte_cons, if_neg (by omega), ih fun d hd => hb d (by simp [hd])]

/-- Two canonical stores with the same 64 cells are equal. -/
theorem wf_ext {m n : Memory} (hm : m.wf = true) (hn : n.wf = true)
    (h : ∀ i < NCELL, m.readCell i = n.readCell i) : m = n := by
  refine wf_ext_all hm hn fun a => ?_
  rcases Nat.lt_or_ge a FRAMEBYTES with ha | ha
  · have hc := h (a / 2) (by rw [FRAMEBYTES_eq] at ha; rw [NCELL_eq]; omega)
    rcases Nat.mod_two_eq_zero_or_one a with h2 | h2
    · have := congrArg lowByte hc
      simpa [show 2 * (a / 2) = a by omega] using this
    · have := congrArg highByte hc
      simpa [show 2 * (a / 2) + 1 = a by omega] using this
  · rw [readByte_eq_zero_of_ge hm ha, readByte_eq_zero_of_ge hn ha]

/-! ### The loops over cells -/

/-- What a run of cell writes over distinct cells leaves in a cell. -/
theorem readCell_foldl_writeCell {α : Type} (idx : α → Nat) (val : α → PackedColor) (l : List α)
    (hl : (l.map idx).Nodup) (m : Memory) :
    (∀ q ∈ l, (l.foldl (fun m q => m.writeCell (idx q) (val q)) m).readCell (idx q) = val q) ∧
    ∀ k, k ∉ l.map idx →
      (l.foldl (fun m q => m.writeCell (idx q) (val q)) m).readCell k = m.readCell k := by
  induction l generalizing m with
  | nil => simp
  | cons a l ih =>
    rw [List.map_cons, List.nodup_cons] at hl
    obtain ⟨hin, hout⟩ := ih hl.2 (m.writeCell (idx a) (val a))
    refine ⟨fun q hq => ?_, fun k hk => ?_⟩
    · rcases List.mem_cons.1 hq with rfl | hq
      · rw [List.foldl_cons, hout _ hl.1, readCell_writeCell, if_pos rfl]
      · exact hin q hq
    · rw [List.map_cons, List.mem_cons, not_or] at hk
      rw [List.foldl_cons, hout k hk.2, readCell_writeCell, if_neg hk.1]

theorem foldl_writeCell_wf {α : Type} (idx : α → Nat) (val : α → PackedColor) (l : List α)
    (hl : ∀ q ∈ l, idx q < NCELL) {m : Memory} (hm : m.wf = true) :
    (l.foldl (fun m q => m.writeCell (idx q) (val q)) m).wf = true := by
  induction l generalizing m with
  | nil => exact hm
  | cons a l ih =>
    exact ih (fun q hq => hl q (by simp [hq])) (writeCell_wf hm (hl a (by simp)) _)

/-- INIT's loop writes every cell (R110). -/
theorem readCell_fillCells (m : Memory) (v : PackedColor) {i : Nat} (hi : i < NCELL) :
    (m.fillCells v).readCell i = v :=
  (readCell_foldl_writeCell id (fun _ => v) (List.range NCELL)
    (by rw [List.map_id]; exact List.nodup_range) m).1 i (List.mem_range.2 hi)

theorem fillCells_wf {m : Memory} (hm : m.wf = true) (v : PackedColor) :
    (m.fillCells v).wf = true :=
  foldl_writeCell_wf id (fun _ => v) (List.range NCELL) (fun _ hq => List.mem_range.1 hq) hm

end Sys2Proof.Machine
end

