-- ==== Sys2Proof/Laws/Operands.lean ====
section
/-! SUPPORT. What the pure functions compute: bit vectors as numbers, the codec, the response word, the addresser
and the fields of a pixel. -/

namespace Sys2Proof

/-- Concatenation as a number. -/
theorem toNat_append_eq {m n : Nat} (x : BitVec m) (y : BitVec n) :
    (x ++ y).toNat = x.toNat * 2 ^ n + y.toNat := by
  rw [BitVec.toNat_append, ← Nat.shiftLeft_add_eq_or_of_lt y.isLt, Nat.shiftLeft_eq]

/-- A slice as a number. -/
theorem toNat_slice {w : Nat} (x : BitVec w) (lo len : Nat) :
    (x.extractLsb' lo len).toNat = x.toNat / 2 ^ lo % 2 ^ len := by
  rw [BitVec.extractLsb'_toNat, Nat.shiftRight_eq_div_pow]

namespace Machine

open Sys2Proof.Config

/-! ### The codec -/

/-- The integer form of `pack` (R90). -/
theorem toNat_pack (r g b : Byte) :
    (pack r g b).toNat = r.toNat / 8 * 2048 + g.toNat / 4 * 32 + b.toNat / 8 := by
  have hr := r.isLt
  have hg := g.isLt
  have hb := b.isLt
  have h : (pack r g b).toNat =
      ((r.extractLsb' 3 5).toNat * 2 ^ 6 + (g.extractLsb' 2 6).toNat) * 2 ^ 5 +
        (b.extractLsb' 3 5).toNat := by
    rw [pack, ← toNat_append_eq, ← toNat_append_eq]
  rw [h, toNat_slice, toNat_slice, toNat_slice]
  omega

/-- The integer form of the red channel of `unpack` (R93). -/
theorem toNat_unpack_red (w : PackedColor) : (unpack w).red.toNat = w.toNat / 2048 * 8 := by
  have hw := w.isLt
  have h : (unpack w).red.toNat = (w.extractLsb' 11 5).toNat * 2 ^ 3 + (0 : BitVec 3).toNat := by
    rw [← toNat_append_eq]
    rfl
  rw [h, toNat_slice]
  simp only [BitVec.ofNat_eq_ofNat, BitVec.toNat_ofNat]
  omega

/-- The integer form of the green channel of `unpack` (R93). -/
theorem toNat_unpack_green (w : PackedColor) :
    (unpack w).green.toNat = w.toNat / 32 % 64 * 4 := by
  have h : (unpack w).green.toNat = (w.extractLsb' 5 6).toNat * 2 ^ 2 + (0 : BitVec 2).toNat := by
    rw [← toNat_append_eq]
    rfl
  rw [h, toNat_slice]
  simp

/-- The integer form of the blue channel of `unpack` (R93). -/
theorem toNat_unpack_blue (w : PackedColor) : (unpack w).blue.toNat = w.toNat % 32 * 8 := by
  have h : (unpack w).blue.toNat = (w.extractLsb' 0 5).toNat * 2 ^ 3 + (0 : BitVec 3).toNat := by
    rw [← toNat_append_eq]
    rfl
  rw [h, toNat_slice]
  simp

/-! ### The response word -/

theorem toNat_okWord (d : RespData) : (okWord d).toNat = d.toNat := by
  have h : (okWord d).toNat = (0 : BitVec 1).toNat * 2 ^ 32 + d.toNat := by
    rw [← toNat_append_eq]
    rfl
  simpa using h

@[simp] theorem okWord_zero : okWord 0#32 = 0#33 := by decide

theorem toNat_argb (a : Byte) (c : Rgb) : (argb a c).toNat =
    a.toNat * 16777216 + c.red.toNat * 65536 + c.green.toNat * 256 + c.blue.toNat := by
  have h : (argb a c).toNat =
      ((a.toNat * 2 ^ 8 + c.red.toNat) * 2 ^ 8 + c.green.toNat) * 2 ^ 8 + c.blue.toNat := by
    rw [argb, ← toNat_append_eq, ← toNat_append_eq, ← toNat_append_eq]
  rw [h]
  omega

theorem toNat_cellData (w : PackedColor) : (cellData w).toNat = w.toNat := by
  have := w.isLt
  rw [cellData, BitVec.toNat_setWidth]
  omega

/-- ILL is 0 in a normal response (R66). -/
@[simp] theorem okWord_ill (d : RespData) : (okWord d).getLsbD 32 = false := by
  have := d.isLt
  rw [← BitVec.testBit_toNat, toNat_okWord]
  exact Nat.testBit_lt_two_pow this

@[simp] theorem respOk_okWord (d : RespData) : respOk (okWord d) = true := by
  rw [respOk, respIll, okWord_ill]
  rfl

@[simp] theorem respOk_illegalWord : respOk illegalWord = true := by decide

/-! ### The source pixel -/

/-- The integer form of `packPixel` (R134). -/
theorem toNat_packPixel (c : Pixel) : (packPixel c).toNat =
    c.toNat / 65536 % 256 / 8 * 2048 + c.toNat / 256 % 256 / 4 * 32 + c.toNat % 256 / 8 := by
  rw [packPixel, toNat_pack, pixelRgb, toNat_slice, toNat_slice, toNat_slice]
  simp

/-- Only the low 24 bits of a pixel matter: the alpha is dropped (R97). -/
theorem packPixel_congr {c d : Pixel} (h : c.extractLsb' 0 24 = d.extractLsb' 0 24) :
    packPixel c = packPixel d := by
  have h' := congrArg BitVec.toNat h
  rw [toNat_slice, toNat_slice] at h'
  refine BitVec.eq_of_toNat_eq ?_
  rw [toNat_packPixel, toNat_packPixel]
  omega

/-! ### The addresser -/

theorem addresser_eq_some_iff {x y : Int} {i : Nat} :
    addresser x y = some i ↔ InRange x y ∧ (i : Int) = y * 8 + x := by
  unfold addresser Idx
  split
  · rename_i h
    simp only [InRange, W, H] at h ⊢
    rw [Option.some.injEq]
    omega
  · rename_i h
    simp [h]

theorem addresser_eq_none_iff {x y : Int} : addresser x y = none ↔ ¬ InRange x y := by
  unfold addresser
  split
  · exact iff_of_false (by simp) (not_not_intro ‹_›)
  · exact iff_of_true rfl ‹_›

theorem addresser_lt {x y : Int} {i : Nat} (h : addresser x y = some i) : i < NCELL := by
  obtain ⟨⟨hx, hy⟩, hi⟩ := addresser_eq_some_iff.1 h
  simp only [W, H] at hx hy
  rw [NCELL_eq]
  omega

/-- Two pairs that reach one cell are equal: nothing aliases (R45). -/
theorem addresser_inj {x y x' y' : Int} {i : Nat} (h : addresser x y = some i)
    (h' : addresser x' y' = some i) : x' = x ∧ y' = y := by
  obtain ⟨⟨hx, hy⟩, hi⟩ := addresser_eq_some_iff.1 h
  obtain ⟨⟨hx', hy'⟩, hi'⟩ := addresser_eq_some_iff.1 h'
  simp only [W, H] at hx hy hx' hy'
  omega

/-- The index of a source request is `sy * 8 + sx`, inside the store. -/
theorem Idx_request (q : SrcRequest) :
    Idx q.sx.toNat q.sy.toNat = q.sy.toNat * 8 + q.sx.toNat ∧
      Idx q.sx.toNat q.sy.toNat < NCELL := by
  have hx := q.sx.isLt
  have hy := q.sy.isLt
  have h : Idx q.sx.toNat q.sy.toNat = q.sy.toNat * 8 + q.sx.toNat := by
    simp only [Idx, W]
    omega
  exact ⟨h, by rw [h, NCELL_eq]; omega⟩

theorem addresser_request (q : SrcRequest) :
    addresser q.sx.toNat q.sy.toNat = some (Idx q.sx.toNat q.sy.toNat) := by
  have hx := q.sx.isLt
  have hy := q.sy.isLt
  rw [addresser, if_pos]
  simp only [InRange, W, H]
  omega

/-! ### Cells by coordinate -/

theorem cellAt_eq (m : Memory) (x y : Int) :
    m.cellAt x y = if InRange x y then some (m.readCell (Idx x y)) else none := by
  unfold Memory.cellAt addresser
  split <;> simp

theorem setCellAt_of_some {m : Memory} {x y : Int} {i : Nat} (h : addresser x y = some i)
    (v : PackedColor) : m.setCellAt x y v = m.writeCell i v := by
  simp [Memory.setCellAt, h]

theorem setCellAt_of_none {m : Memory} {x y : Int} (h : addresser x y = none) (v : PackedColor) :
    m.setCellAt x y v = m := by
  simp [Memory.setCellAt, h]

/-- A write by coordinate changes the cell the addresser names and no other (R51). -/
theorem readCell_setCellAt (m : Memory) (x y : Int) (v : PackedColor) (k : Nat) :
    (m.setCellAt x y v).readCell k = if addresser x y = some k then v else m.readCell k := by
  cases h : addresser x y with
  | none => simp [setCellAt_of_none h]
  | some i => simp [setCellAt_of_some h, readCell_writeCell, eq_comm]

theorem setCellAt_wf {m : Memory} (hm : m.wf = true) (x y : Int) (v : PackedColor) :
    (m.setCellAt x y v).wf = true := by
  cases h : addresser x y with
  | none => rwa [setCellAt_of_none h]
  | some i => rw [setCellAt_of_some h]; exact writeCell_wf hm (addresser_lt h) v

end Machine

end Sys2Proof
end

