-- ==== Sys2Proof/Laws/Decode.lean ====
section
/-! SUPPORT. The command word by its fields: what each field of an encoded word is, what a mask of the opcode
table asks of the fields, and what the operation codes name. -/

namespace Sys2Proof

/-- A word made of all eight fields of format C (R61), ZERO among them. -/
def formatFull (op z : BitVec 4) (x y : BitVec 12) (a r g b : Byte) : CmdWord :=
  op ++ z ++ x ++ y ++ a ++ r ++ g ++ b

/-- `ZERO = CMD[59:56]` (R61). -/
def fieldZero (c : CmdWord) : BitVec 4 := c.extractLsb' 56 4

theorem formatC_eq (op : BitVec 4) (x y : BitVec 12) (a r g b : Byte) :
    formatC op x y a r g b = formatFull op 0 x y a r g b := rfl

theorem toNat_formatFull (op z : BitVec 4) (x y : BitVec 12) (a r g b : Byte) :
    (formatFull op z x y a r g b).toNat =
      ((((((op.toNat * 16 + z.toNat) * 4096 + x.toNat) * 4096 + y.toNat) * 256 + a.toNat) * 256 +
        r.toNat) * 256 + g.toNat) * 256 + b.toNat := by
  have h : (formatFull op z x y a r g b).toNat =
      ((((((op.toNat * 2 ^ 4 + z.toNat) * 2 ^ 12 + x.toNat) * 2 ^ 12 + y.toNat) * 2 ^ 8 +
        a.toNat) * 2 ^ 8 + r.toNat) * 2 ^ 8 + g.toNat) * 2 ^ 8 + b.toNat := by
    rw [formatFull, ← toNat_append_eq, ← toNat_append_eq, ← toNat_append_eq, ← toNat_append_eq,
      ← toNat_append_eq, ← toNat_append_eq, ← toNat_append_eq]
  simpa using h

/-! ### The fields of a word made of fields -/

section Fields
variable (op z : BitVec 4) (x y : BitVec 12) (a r g b : Byte)

@[simp] theorem fieldOp_formatFull : fieldOp (formatFull op z x y a r g b) = op := by
  refine BitVec.eq_of_toNat_eq ?_
  rw [fieldOp, toNat_slice, toNat_formatFull]
  have := op.isLt; have := z.isLt; have := x.isLt; have := y.isLt; have := a.isLt; have := r.isLt
  have := g.isLt; have := b.isLt
  omega

@[simp] theorem fieldZero_formatFull : fieldZero (formatFull op z x y a r g b) = z := by
  refine BitVec.eq_of_toNat_eq ?_
  rw [fieldZero, toNat_slice, toNat_formatFull]
  have := z.isLt; have := x.isLt; have := y.isLt; have := a.isLt; have := r.isLt
  have := g.isLt; have := b.isLt
  omega

@[simp] theorem fieldX_formatFull : fieldX (formatFull op z x y a r g b) = x := by
  refine BitVec.eq_of_toNat_eq ?_
  rw [fieldX, toNat_slice, toNat_formatFull]
  have := x.isLt; have := y.isLt; have := a.isLt; have := r.isLt
  have := g.isLt; have := b.isLt
  omega

@[simp] theorem fieldY_formatFull : fieldY (formatFull op z x y a r g b) = y := by
  refine BitVec.eq_of_toNat_eq ?_
  rw [fieldY, toNat_slice, toNat_formatFull]
  have := y.isLt; have := a.isLt; have := r.isLt; have := g.isLt; have := b.isLt
  omega

@[simp] theorem fieldA_formatFull : fieldA (formatFull op z x y a r g b) = a := by
  refine BitVec.eq_of_toNat_eq ?_
  rw [fieldA, toNat_slice, toNat_formatFull]
  have := a.isLt; have := r.isLt; have := g.isLt; have := b.isLt
  omega

@[simp] theorem fieldR_formatFull : fieldR (formatFull op z x y a r g b) = r := by
  refine BitVec.eq_of_toNat_eq ?_
  rw [fieldR, toNat_slice, toNat_formatFull]
  have := r.isLt; have := g.isLt; have := b.isLt
  omega

@[simp] theorem fieldG_formatFull : fieldG (formatFull op z x y a r g b) = g := by
  refine BitVec.eq_of_toNat_eq ?_
  rw [fieldG, toNat_slice, toNat_formatFull]
  have := g.isLt; have := b.isLt
  omega

@[simp] theorem fieldB_formatFull : fieldB (formatFull op z x y a r g b) = b := by
  refine BitVec.eq_of_toNat_eq ?_
  rw [fieldB, toNat_slice, toNat_formatFull]
  have := b.isLt
  omega

end Fields

/-- Every word is made of its fields. -/
theorem formatFull_fields (c : CmdWord) :
    formatFull (fieldOp c) (fieldZero c) (fieldX c) (fieldY c) (fieldA c) (fieldR c) (fieldG c)
      (fieldB c) = c := by
  refine BitVec.eq_of_toNat_eq ?_
  have := c.isLt
  simp only [toNat_formatFull, fieldOp, fieldZero, fieldX, fieldY, fieldA, fieldR, fieldG, fieldB,
    toNat_slice]
  omega

/-- WORD overlays G and B (R61). -/
theorem fieldWord_eq (c : CmdWord) : fieldWord c = fieldG c ++ fieldB c := by
  refine BitVec.eq_of_toNat_eq ?_
  have h : (fieldG c ++ fieldB c : PackedColor).toNat = (fieldG c).toNat * 2 ^ 8 + (fieldB c).toNat := by
    rw [← toNat_append_eq]
  rw [h, fieldWord, fieldG, fieldB, toNat_slice, toNat_slice, toNat_slice]
  omega

/-- Two words are equal exactly when their fields are. -/
theorem formatFull_inj {op z op' z' : BitVec 4} {x y x' y' : BitVec 12}
    {a r g b a' r' g' b' : Byte} :
    formatFull op z x y a r g b = formatFull op' z' x' y' a' r' g' b' ↔
      op = op' ∧ z = z' ∧ x = x' ∧ y = y' ∧ a = a' ∧ r = r' ∧ g = g' ∧ b = b' := by
  refine ⟨fun h => ?_, fun ⟨h1, h2, h3, h4, h5, h6, h7, h8⟩ => by rw [h1, h2, h3, h4, h5, h6, h7, h8]⟩
  refine ⟨?_, ?_, ?_, ?_, ?_, ?_, ?_, ?_⟩
  · simpa using congrArg fieldOp h
  · simpa using congrArg fieldZero h
  · simpa using congrArg fieldX h
  · simpa using congrArg fieldY h
  · simpa using congrArg fieldA h
  · simpa using congrArg fieldR h
  · simpa using congrArg fieldG h
  · simpa using congrArg fieldB h

/-- The word with a packed word in place of G and B, by fields. -/
theorem formatCWord_eq (op : BitVec 4) (x y : BitVec 12) (w : PackedColor) :
    formatCWord op x y w = formatFull op 0 x y 0 0 (w.extractLsb' 8 8) (w.extractLsb' 0 8) := by
  refine BitVec.eq_of_toNat_eq ?_
  have h : (formatCWord op x y w).toNat =
      ((((op.toNat * 2 ^ 4 + (0 : BitVec 4).toNat) * 2 ^ 12 + x.toNat) * 2 ^ 12 + y.toNat) * 2 ^ 16 +
        (0 : BitVec 16).toNat) * 2 ^ 16 + w.toNat := by
    rw [formatCWord, ← toNat_append_eq, ← toNat_append_eq, ← toNat_append_eq, ← toNat_append_eq,
      ← toNat_append_eq]
  have hw := w.isLt
  rw [h, toNat_formatFull, toNat_slice, toNat_slice]
  simp only [BitVec.ofNat_eq_ofNat, BitVec.toNat_ofNat]
  omega

theorem word_of_bytes (w : PackedColor) :
    (w.extractLsb' 8 8 ++ w.extractLsb' 0 8 : PackedColor) = w :=
  Machine.highByte_append_lowByte w

/-! ### What a mask asks of the fields -/

theorem append_and_append {m n : Nat} (x x' : BitVec m) (y y' : BitVec n) :
    (x ++ y) &&& (x' ++ y') = (x &&& x') ++ (y &&& y') := by
  refine BitVec.eq_of_getLsbD_eq fun i hi => ?_
  simp only [BitVec.getLsbD_and, BitVec.getLsbD_append]
  split <;> simp

theorem formatFull_and (op z op' z' : BitVec 4) (x y x' y' : BitVec 12)
    (a r g b a' r' g' b' : Byte) :
    formatFull op z x y a r g b &&& formatFull op' z' x' y' a' r' g' b' =
      formatFull (op &&& op') (z &&& z') (x &&& x') (y &&& y') (a &&& a') (r &&& r') (g &&& g')
        (b &&& b') := by
  simp only [formatFull, ← append_and_append]

/-- A word matches a mask given by fields exactly when its masked fields match. -/
theorem and_formatFull_eq_iff (c : CmdWord) {op z op' z' : BitVec 4} {x y x' y' : BitVec 12}
    {a r g b a' r' g' b' : Byte} :
    c &&& formatFull op z x y a r g b = formatFull op' z' x' y' a' r' g' b' ↔
      fieldOp c &&& op = op' ∧ fieldZero c &&& z = z' ∧ fieldX c &&& x = x' ∧
      fieldY c &&& y = y' ∧ fieldA c &&& a = a' ∧ fieldR c &&& r = r' ∧ fieldG c &&& g = g' ∧
      fieldB c &&& b = b' := by
  conv_lhs => rw [← formatFull_fields c, formatFull_and, formatFull_inj]

theorem and_ones4 (v : BitVec 4) : v &&& 0xF = v := BitVec.and_allOnes
theorem and_ones8 (v : Byte) : v &&& 0xFF = v := BitVec.and_allOnes
theorem and_ones12 (v : BitVec 12) : v &&& 0xFFF = v := BitVec.and_allOnes

/-- The fields that the mask of a command fixes: OP, ZERO and the unused ones (R62, R75). -/
theorem mask_fields (op : Opcode) : ∃ x y a r g b,
    op.mask = formatFull 0xF 0xF x y a r g b ∧ op.matchBits = formatFull op.code 0 0 0 0 0 0 0 := by
  cases op
  · exact ⟨0xFFF, 0xFFF, 0xFF, 0, 0, 0, by decide⟩
  · exact ⟨0xFFF, 0xFFF, 0xFF, 0xFF, 0, 0, by decide⟩
  · exact ⟨0xFFF, 0xFFF, 0xFF, 0xFF, 0xFF, 0xFF, by decide⟩
  · exact ⟨0, 0, 0xFF, 0xFF, 0xFF, 0xFF, by decide⟩
  · exact ⟨0, 0, 0xFF, 0xFF, 0, 0, by decide⟩
  · exact ⟨0xFFF, 0xFFF, 0xFF, 0xFF, 0xFF, 0xFF, by decide⟩
  · exact ⟨0, 0, 0xFF, 0xFF, 0xFF, 0xFF, by decide⟩
  · exact ⟨0, 0, 0, 0, 0, 0, by decide⟩
  · exact ⟨0xFFF, 0xFFF, 0xFF, 0xFF, 0xFF, 0xFF, by decide⟩
  · exact ⟨0xFFF, 0xFFF, 0xFF, 0xFF, 0xFF, 0xFF, by decide⟩
  · exact ⟨0xFFF, 0xFFF, 0xFF, 0xFF, 0xFF, 0xFF, by decide⟩
  · exact ⟨0xFFF, 0xFFF, 0xFF, 0xFF, 0xFF, 0xFF, by decide⟩

theorem spelledBy_iff {op : Opcode} {c : CmdWord} :
    op.spelledBy c = true ↔ c &&& op.mask = op.matchBits := by
  simp [Opcode.spelledBy]

/-- A word that spells a command has its OP value. -/
theorem fieldOp_of_spelledBy {op : Opcode} {c : CmdWord} (h : op.spelledBy c = true) :
    fieldOp c = op.code := by
  obtain ⟨x, y, a, r, g, b, hm, hb⟩ := mask_fields op
  rw [spelledBy_iff, hm, hb, and_formatFull_eq_iff] at h
  simpa only [and_ones4] using h.1

/-! ### The operation codes -/

@[simp] theorem ofCode_code (op : Opcode) : Opcode.ofCode op.code = some op := by
  cases op <;> rfl

/-- An OP value names a command or is one of the four reserved ones (R74, R76). -/
theorem ofCode_eq_none_iff (v : BitVec 4) :
    Opcode.ofCode v = none ↔ v = 0x0 ∨ v = 0xD ∨ v = 0xE ∨ v = 0xF := by
  revert v
  decide

theorem code_of_ofCode {v : BitVec 4} {op : Opcode} (h : Opcode.ofCode v = some op) :
    op.code = v := by
  revert op v
  decide

/-! ### The decoder -/

/-- Everything an accepted word says: it spells one command, and its fields are the operands (R65). -/
theorem decode_eq_ok_iff {c : CmdWord} {i : Instr} :
    decode c = .ok i ↔ ∃ op : Opcode, c &&& op.mask = op.matchBits ∧ i = op.operands c := by
  unfold decode
  constructor
  · split
    · simp
    · rename_i op hop
      split
      · rename_i h
        intro hi
        exact ⟨op, spelledBy_iff.1 h, by simpa [eq_comm] using hi⟩
      · simp
  · rintro ⟨op, hop, rfl⟩
    have h := spelledBy_iff.2 hop
    rw [fieldOp_of_spelledBy h, ofCode_code]
    simp [h]

/-- The same from a row of the table. -/
theorem decode_of_spelledBy {c : CmdWord} (op : Opcode) (h : c &&& op.mask = op.matchBits) :
    decode c = .ok (op.operands c) :=
  decode_eq_ok_iff.2 ⟨op, h, rfl⟩

/-! ### Coordinates -/

/-- A coordinate in range survives its field (R63). -/
theorem toInt_coordField {v : Int} (h : coordOk v = true) : (coordField v).toInt = v := by
  simp only [coordOk, decide_eq_true_eq, Config.coordMin, Config.coordMax] at h
  rw [coordField, BitVec.toInt_ofInt]
  exact Int.bmod_eq_of_le (by omega) (by omega)

/-- Every field value is a coordinate in range (R63). -/
theorem coordOk_toInt (x : BitVec 12) : coordOk x.toInt = true := by
  have h1 := x.toInt_lt
  have h2 := x.le_toInt
  simp only [coordOk, decide_eq_true_eq, Config.coordMin, Config.coordMax]
  omega

theorem coordField_toInt (x : BitVec 12) : coordField x.toInt = x := by
  simp [coordField]

end Sys2Proof
end

