-- ==== Sys2Proof/Laws/Assembly.lean ====
section
/-! SUPPORT. The laws of the text form (R82): digits read one after another, blanks taken off the ends, pieces cut at
commas, and everything a line that stands for a command says. -/

namespace Sys2Proof.Assembly

/-! ### Names -/

/-- A name that is found stands in the list with its spelling. -/
theorem findName_mem {cs : List Char} {t : TextOp} :
    ∀ {l : List (List Char × TextOp)}, findName cs l = some t → (cs, t) ∈ l
  | e :: rest, h => by
    unfold findName at h
    split at h
    · rename_i he
      cases h
      exact List.mem_cons.2 (.inl (by rw [← he]))
    · exact List.mem_cons_of_mem _ (findName_mem h)

/-! ### Numbers -/

theorem digitsFrom_nil (base acc : Nat) : digitsFrom base acc [] = some acc := rfl

/-- Digits are read left to right, the value so far going on into the rest. -/
theorem digitsFrom_append (base : Nat) (cs ds : List Char) (acc : Nat) :
    digitsFrom base acc (cs ++ ds) = (digitsFrom base acc cs).bind fun v => digitsFrom base v ds := by
  induction cs generalizing acc with
  | nil => rfl
  | cons c cs ih =>
    simp only [List.cons_append, digitsFrom]
    cases digitValue base c with
    | none => rfl
    | some d => exact ih _

/-- A run that is not empty is read from 0. -/
theorem digits_eq {base : Nat} {cs : List Char} (h : cs ≠ []) :
    digits base cs = digitsFrom base 0 cs := by
  cases cs with
  | nil => exact absurd rfl h
  | cons c cs => rfl

/-- Without a leading `-` and without `0x`, a number is a run of decimal digits. -/
theorem parseNumber_decimal {cs : List Char} (hm : ∀ ds, cs ≠ '-' :: ds)
    (hx : ∀ ds, cs ≠ '0' :: 'x' :: ds) : parseNumber cs = (digits 10 cs).map fun n => ⟨false, n⟩ := by
  unfold parseNumber
  split
  · exact absurd rfl (hx _)
  · exact absurd rfl (hm _)
  · rfl

/-- A coordinate that is taken is in range (R63, R82). -/
theorem coordOk_of_coord {n : Number} {v : Int} (h : n.coord = some v) : coordOk v = true := by
  unfold Number.coord at h
  extract_lets w at h
  by_cases hw : coordOk w = true
  · rw [if_pos hw] at h
    injection h with h
    rw [← h]
    exact hw
  · rw [if_neg hw] at h
    cases h

/-! ### Blanks and commas -/

/-- Nothing is taken off a text without blanks. -/
theorem trim_of_no_blank {cs : List Char} (h : ∀ c ∈ cs, isBlank c = false) : trim cs = cs := by
  have drop : ∀ {l : List Char}, (∀ c ∈ l, isBlank c = false) → l.dropWhile isBlank = l := by
    intro l hl
    cases l with
    | nil => rfl
    | cons c l => simp [hl c (by simp)]
  rw [trim, drop h, drop (fun c hc => h c (List.mem_reverse.1 hc)), List.reverse_reverse]

/-- A blank in front is taken off. -/
theorem trim_cons_blank {c : Char} (h : isBlank c = true) (cs : List Char) :
    trim (c :: cs) = trim cs := by
  simp [trim, h]

/-- Nothing is taken off a text that begins and ends with something other than a blank. -/
theorem trim_of_ends {c d : Char} (hc : isBlank c = false) (hd : isBlank d = false)
    (cs ds : List Char) (h : c :: cs = ds ++ [d]) : trim (c :: cs) = c :: cs := by
  have h1 : (c :: cs).dropWhile isBlank = c :: cs := by simp [hc]
  rw [trim, h1, h]
  simp [hd]

/-- A text without commas is one piece. -/
theorem splitCommas_last {cs : List Char} (h : ∀ c ∈ cs, c ≠ ',') (piece : List Char) :
    splitCommas piece cs = [piece.reverse ++ cs] := by
  induction cs generalizing piece with
  | nil => simp [splitCommas]
  | cons c cs ih =>
    rw [splitCommas, if_neg (h c (by simp)), ih fun d hd => h d (List.mem_cons_of_mem _ hd)]
    simp

/-- The text up to the first comma is one piece, and the rest is cut up anew. -/
theorem splitCommas_comma {cs : List Char} (h : ∀ c ∈ cs, c ≠ ',') (piece rest : List Char) :
    splitCommas piece (cs ++ ',' :: rest) = (piece.reverse ++ cs) :: splitCommas [] rest := by
  induction cs generalizing piece with
  | nil => simp [splitCommas]
  | cons c cs ih =>
    rw [List.cons_append, splitCommas, if_neg (h c (by simp)),
      ih fun d hd => h d (List.mem_cons_of_mem _ hd)]
    simp

/-! ### Commands and lines -/

/-- How many operands a name has in R82. -/
def TextOp.arity : TextOp → Nat
  | .command .pack => 3
  | .command .unpack => 1
  | .command .get => 2
  | .command .set => 3
  | .command .colorAt => 2
  | .command .setColor => 6
  | .setRgb => 5
  | _ => 0

/-- A name with another number of operands stands for no command. -/
theorem length_of_assemble {t : TextOp} {ns : List Number} {i : Instr}
    (h : t.assemble ns = some i) : ns.length = t.arity := by
  unfold TextOp.assemble at h
  split at h <;> first | rfl | simp at h

/-- A command that a name and operands stand for has its coordinates in range. -/
theorem wellFormed_of_assemble {t : TextOp} {ns : List Number} {i : Instr}
    (h : t.assemble ns = some i) : i.wellFormed = true := by
  unfold TextOp.assemble at h
  split at h <;>
    simp only [Option.bind_eq_some_iff, Option.map_eq_some_iff, Option.some.injEq, reduceCtorEq] at h
  all_goals first
    | (subst h; rfl)
    | (obtain ⟨_, _, _, _, _, _, rfl⟩ := h; rfl)
    | (obtain ⟨_, hx, _, hy, rfl⟩ := h
       simp [Instr.wellFormed, coordOk_of_coord hx, coordOk_of_coord hy])
    | (obtain ⟨_, hx, _, hy, _, _, rfl⟩ := h
       simp [Instr.wellFormed, coordOk_of_coord hx, coordOk_of_coord hy])
    | (obtain ⟨_, hx, _, hy, _, _, _, _, _, _, rfl⟩ := h
       simp [Instr.wellFormed, coordOk_of_coord hx, coordOk_of_coord hy])
    | (obtain ⟨_, hx, _, hy, _, _, _, _, _, _, _, _, rfl⟩ := h
       simp [Instr.wellFormed, coordOk_of_coord hx, coordOk_of_coord hy])

/-- Everything a line that stands for a command says: before the comment stand a name of R82 and the operands, and the
name takes them. -/
theorem assembleLine_eq_some {line : List Char} {i : Instr}
    (h : assembleLine line = .ok (some i)) :
    ∃ cs t ns, cs = trim (line.takeWhile fun c => c != ';') ∧
      findName (cs.takeWhile fun d => !isBlank d) names = some t ∧
      parseOperands (cs.dropWhile fun d => !isBlank d) = some ns ∧ t.assemble ns = some i := by
  unfold assembleLine at h
  split at h
  · simp at h
  · rename_i c cs hc
    split at h
    · simp at h
    · rename_i t ht
      split at h
      · simp at h
      · rename_i ns hns
        split at h
        · simp at h
        · rename_i j hj
          refine ⟨c :: cs, t, ns, hc.symm, ht, hns, ?_⟩
          simpa [hj] using h

/-- What a line stands for, once its name and its operands are read. -/
theorem assembleLine_eq_some_iff {line cs : List Char} {c : Char} {t : TextOp} {ns : List Number}
    {i : Instr} (hline : trim (line.takeWhile fun c => c != ';') = c :: cs)
    (hname : findName ((c :: cs).takeWhile fun d => !isBlank d) names = some t)
    (hops : parseOperands ((c :: cs).dropWhile fun d => !isBlank d) = some ns) :
    assembleLine line = .ok (some i) ↔ t.assemble ns = some i := by
  unfold assembleLine
  simp only [hline, hname, hops]
  cases t.assemble ns <;> simp

end Sys2Proof.Assembly
end

