-- ==== Sys2Proof/Laws/State.lean ====
section
/-! SUPPORT. One lemma per field per update of State, each by `rfl`, so that no later proof unfolds a record
update. -/

namespace Sys2Proof.Machine

section Respond
variable (d : RespData) (s : State)

@[simp] theorem respond_pb : (respond d s).pb = s.pb := rfl
@[simp] theorem respond_src : (respond d s).src = s.src := rfl
@[simp] theorem respond_pending : (respond d s).pending = s.pending := rfl
@[simp] theorem respond_responses : (respond d s).responses = s.responses ++ [okWord d] := rfl
@[simp] theorem respond_frames : (respond d s).frames = s.frames := rfl
@[simp] theorem respond_requests : (respond d s).requests = s.requests := rfl
end Respond

section RespondIllegal
variable (s : State)

@[simp] theorem respondIllegal_pb : (respondIllegal s).pb = s.pb := rfl
@[simp] theorem respondIllegal_src : (respondIllegal s).src = s.src := rfl
@[simp] theorem respondIllegal_pending : (respondIllegal s).pending = s.pending := rfl
@[simp] theorem respondIllegal_responses :
    (respondIllegal s).responses = s.responses ++ [illegalWord] := rfl
@[simp] theorem respondIllegal_frames : (respondIllegal s).frames = s.frames := rfl
@[simp] theorem respondIllegal_requests : (respondIllegal s).requests = s.requests := rfl
end RespondIllegal

section Emit
variable (f : Frame) (s : State)

@[simp] theorem emit_pb : (emit f s).pb = s.pb := rfl
@[simp] theorem emit_src : (emit f s).src = s.src := rfl
@[simp] theorem emit_pending : (emit f s).pending = s.pending := rfl
@[simp] theorem emit_responses : (emit f s).responses = s.responses := rfl
@[simp] theorem emit_frames : (emit f s).frames = s.frames ++ [f] := rfl
@[simp] theorem emit_requests : (emit f s).requests = s.requests := rfl
end Emit

section ApplyReset
variable (s : State)

@[simp] theorem applyReset_pb : (applyReset s).pb = State.reset.pb := rfl
@[simp] theorem applyReset_src : (applyReset s).src = SourceImage.idle := rfl
@[simp] theorem applyReset_pending : (applyReset s).pending = s.pending := rfl
@[simp] theorem applyReset_responses : (applyReset s).responses = s.responses := rfl
@[simp] theorem applyReset_frames : (applyReset s).frames = s.frames := rfl
@[simp] theorem applyReset_requests : (applyReset s).requests = s.requests := rfl
end ApplyReset

section Reset

@[simp] theorem reset_pb : State.reset.pb = [] := rfl
@[simp] theorem reset_src : State.reset.src = SourceImage.idle := rfl
@[simp] theorem reset_pending : State.reset.pending = [] := rfl
@[simp] theorem reset_responses : State.reset.responses = [] := rfl
@[simp] theorem reset_frames : State.reset.frames = [] := rfl
@[simp] theorem reset_requests : State.reset.requests = [] := rfl
end Reset

end Sys2Proof.Machine
end

