-- ==== Sys2Proof/Laws/Ops.lean ====
section
/-! SUPPORT. What the shared operations of Machine/Ops.lean can do: the loop over the source image, the
serialisation function, and the taking of a host move. -/

namespace Sys2Proof.Machine

open Sys2Proof.Config

/-! ### The loop over the source image -/

/-- The image of the loop on the store: the quantized pixels at their indexes, in visit order. -/
def loadImage (img : SourceImage) (m : Memory) : Memory :=
  visitOrder.foldl
    (fun m q => m.writeCell (Idx q.sx.toNat q.sy.toNat) (packPixel (img.pixel q))) m

theorem foldl_loadPixel (l : List SrcRequest) (m : Memory) (s : State) :
    l.foldl loadPixel (m, s) =
      (l.foldl (fun m q =>
          m.writeCell (Idx q.sx.toNat q.sy.toNat) (packPixel (s.src.pixel q))) m,
        { s with requests := s.requests ++ l }) := by
  induction l generalizing m s with
  | nil => simp
  | cons q l ih =>
    rw [List.foldl_cons, loadPixel, readSource, ih, List.foldl_cons]
    simp

/-- All that the loop does: it fills the store and requests every coordinate once, in visit order. -/
theorem loadFromSource_eq (m : Memory) (s : State) :
    loadFromSource m s =
      (loadImage s.src m, { s with requests := s.requests ++ visitOrder }) :=
  foldl_loadPixel visitOrder m s

theorem mem_visitOrder (q : SrcRequest) : q ∈ visitOrder := by
  obtain ⟨sx, sy⟩ := q
  have hx := sx.isLt
  have hy := sy.isLt
  simp only [visitOrder, List.mem_flatMap, List.mem_map, List.mem_range, SrcRequest.mk.injEq]
  exact ⟨sy.toNat, hy, sx.toNat, hx, by simp, by simp⟩

/-- No two requests of the loop reach one cell. -/
theorem visitOrder_idx_nodup :
    (visitOrder.map fun q : SrcRequest => Idx q.sx.toNat q.sy.toNat).Nodup := by
  decide +kernel

theorem visitOrder_idx : visitOrder.map (fun q : SrcRequest => Idx q.sx.toNat q.sy.toNat) =
    List.range NCELL := by
  decide +kernel

/-- Every cell holds the quantized pixel of its coordinate (R134). -/
theorem readCell_loadImage (img : SourceImage) (m : Memory) (q : SrcRequest) :
    (loadImage img m).readCell (Idx q.sx.toNat q.sy.toNat) = packPixel (img.pixel q) :=
  (readCell_foldl_writeCell (fun q : SrcRequest => Idx q.sx.toNat q.sy.toNat)
    (fun q => packPixel (img.pixel q)) visitOrder visitOrder_idx_nodup m).1 q (mem_visitOrder q)

/-- "nothing of the old `PB` survives" (R134), and nothing outside the store is written. -/
theorem readCell_loadImage_of_ge (img : SourceImage) (m : Memory) {k : Nat} (hk : NCELL ≤ k) :
    (loadImage img m).readCell k = m.readCell k := by
  refine (readCell_foldl_writeCell (fun q : SrcRequest => Idx q.sx.toNat q.sy.toNat)
    (fun q => packPixel (img.pixel q)) visitOrder visitOrder_idx_nodup m).2 k ?_
  rw [visitOrder_idx, List.mem_range]
  omega

/-- Each index below `NCELL` is the index of a request. -/
theorem exists_request {k : Nat} (hk : k < NCELL) :
    ∃ q : SrcRequest, k = Idx q.sx.toNat q.sy.toNat := by
  have h : k ∈ visitOrder.map fun q : SrcRequest => Idx q.sx.toNat q.sy.toNat := by
    rw [visitOrder_idx]
    exact List.mem_range.2 hk
  obtain ⟨q, -, hq⟩ := List.mem_map.1 h
  exact ⟨q, hq.symm⟩

theorem loadImage_wf (img : SourceImage) {m : Memory} (hm : m.wf = true) :
    (loadImage img m).wf = true :=
  foldl_writeCell_wf (fun q : SrcRequest => Idx q.sx.toNat q.sy.toNat)
    (fun q => packPixel (img.pixel q)) visitOrder (fun q _ => (Idx_request q).2) hm

/-! ### The serialisation function -/

/-- The frame of a run of cells, and where its bytes are. -/
theorem flatMap_pair_getElem? {α : Type} (l : List α) (f g : α → Byte) (i : Nat) :
    (l.flatMap fun a => [f a, g a])[2 * i]? = l[i]?.map f ∧
      (l.flatMap fun a => [f a, g a])[2 * i + 1]? = l[i]?.map g := by
  induction l generalizing i with
  | nil => simp
  | cons a l ih =>
    cases i with
    | zero => simp
    | succ i => simpa [show 2 * (i + 1) = 2 * i + 1 + 1 by omega] using ih i

theorem serFrame_length (p : Memory) : (serFrame p).length = FRAMEBYTES := by
  simp [serFrame]

/-- The low byte of cell `i` at `2i`, its high byte at `2i + 1` (R46). -/
theorem serFrame_getElem? (p : Memory) {i : Nat} (hi : i < NCELL) :
    (serFrame p)[2 * i]? = some (lowByte (p.readCell i)) ∧
      (serFrame p)[2 * i + 1]? = some (highByte (p.readCell i)) := by
  have h := flatMap_pair_getElem? (List.range NCELL) (fun i => lowByte (p.readCell i))
    (fun i => highByte (p.readCell i)) i
  simpa only [serFrame, List.getElem?_range hi, Option.map_some] using h

/-- Stores with the same 64 cells have the same frame. -/
theorem serFrame_congr {p q : Memory} (h : ∀ i < NCELL, p.readCell i = q.readCell i) :
    serFrame p = serFrame q := by
  unfold serFrame
  refine List.flatMap_congr fun i hi => ?_
  rw [h i (List.mem_range.1 hi)]

theorem frameOnWire_eq (f : Frame) :
    frameOnWire f = (List.range f.length).map fun k => (BitVec.ofNat 7 k, f.getD k 0) := by
  refine List.ext_getElem (by simp [frameOnWire]) fun k h1 h2 => ?_
  have hk : k < f.length := by simpa [frameOnWire] using h1
  simp [frameOnWire, hk]

@[simp] theorem wireBytes_append (s t : State) (f : Frame) (h : t.frames = s.frames ++ [f]) :
    wireBytes t = wireBytes s ++ frameOnWire f := by
  simp [wireBytes, h]

/-! ### Taking a host move -/

theorem takeMove_nothing {s : State} (h : s.pending = []) : takeMove s = .nothing := by
  simp [takeMove, h]

theorem takeMove_reset {s : State} {rest : List HostMove} (h : s.pending = .reset :: rest) :
    takeMove s = .reset { s with pending := rest } := by
  simp [takeMove, h]

theorem takeMove_command {s : State} {c : CmdWord} {img : SourceImage} {rest : List HostMove}
    (h : s.pending = .command c img :: rest) :
    takeMove s = .command c { s with pending := rest, src := img } := by
  simp [takeMove, h]

end Sys2Proof.Machine
end

