-- ==== Sys2Proof/Laws/Exec.lean ====
section
/-! SUPPORT. Said once: everything a command does (`exec_eq`), by field of the state, and everything a step
does (`step_cases`). Later proofs cite these and never unfold `exec` or `step`. -/

namespace Sys2Proof.Machine

open Sys2Proof.Config

/-- The store a command leaves. -/
def storeAfter (i : Instr) (s : State) : Memory :=
  match i with
  | .pack _ _ _ => s.pb
  | .unpack _ => s.pb
  | .init => s.pb.fillCells 0
  | .get _ _ => s.pb
  | .set x y w => s.pb.setCellAt x y w
  | .bounds => s.pb
  | .colorAt _ _ => s.pb
  | .setColor x y _ r g b => s.pb.setCellAt x y (pack r g b)
  | .loadImg => loadImage s.src s.pb
  | .ser => s.pb
  | .serz => s.pb
  | .serImg => s.pb

/-- The DATA a command responds. -/
def dataOf (i : Instr) (s : State) : RespData :=
  match i with
  | .pack r g b => cellData (pack r g b)
  | .unpack w => argb 0 (unpack w)
  | .init => 0
  | .get x y => cellData ((s.pb.cellAt x y).getD 0)
  | .set _ _ _ => 0
  | .bounds => 0x00000808
  | .colorAt x y => ((s.pb.cellAt x y).map fun w => argb opaqueAlpha (unpack w)).getD absentColour
  | .setColor _ _ _ _ _ _ => 0
  | .loadImg => 0
  | .ser => 0
  | .serz => 0
  | .serImg => 0

/-- The frames a command emits. -/
def framesOf (i : Instr) (s : State) : List Frame :=
  match i with
  | .pack _ _ _ => []
  | .unpack _ => []
  | .init => []
  | .get _ _ => []
  | .set _ _ _ => []
  | .bounds => []
  | .colorAt _ _ => []
  | .setColor _ _ _ _ _ _ => []
  | .loadImg => []
  | .ser => [serFrame s.pb]
  | .serz => [serFrame blankStore]
  | .serImg => [serFrame (loadImage s.src freshStore)]

/-- The requests a command makes on the source-pixel port. -/
def requestsOf (i : Instr) : List SrcRequest :=
  match i with
  | .pack _ _ _ => []
  | .unpack _ => []
  | .init => []
  | .get _ _ => []
  | .set _ _ _ => []
  | .bounds => []
  | .colorAt _ _ => []
  | .setColor _ _ _ _ _ _ => []
  | .loadImg => visitOrder
  | .ser => []
  | .serz => []
  | .serImg => visitOrder

/-- The state a command leaves, every field of it. -/
def afterExec (i : Instr) (s : State) : State where
  pb := storeAfter i s
  src := s.src
  pending := s.pending
  responses := s.responses ++ [okWord (dataOf i s)]
  frames := s.frames ++ framesOf i s
  requests := s.requests ++ requestsOf i

section AfterExec
variable (i : Instr) (s : State)

@[simp] theorem afterExec_pb : (afterExec i s).pb = storeAfter i s := rfl
@[simp] theorem afterExec_src : (afterExec i s).src = s.src := rfl
@[simp] theorem afterExec_pending : (afterExec i s).pending = s.pending := rfl
@[simp] theorem afterExec_responses :
    (afterExec i s).responses = s.responses ++ [okWord (dataOf i s)] := rfl
@[simp] theorem afterExec_frames : (afterExec i s).frames = s.frames ++ framesOf i s := rfl
@[simp] theorem afterExec_requests : (afterExec i s).requests = s.requests ++ requestsOf i := rfl

end AfterExec

/-- Everything a command does. -/
theorem exec_eq (i : Instr) (s : State) : exec i s = .next (afterExec i s) := by
  cases i with
  | loadImg => simp [exec, execLoadImg, loadFromSource_eq, afterExec, respond, storeAfter, dataOf,
      framesOf, requestsOf]
  | serImg => simp [exec, execSerImg, loadFromSource_eq, afterExec, respond, emit, storeAfter,
      dataOf, framesOf, requestsOf]
  | colorAt x y =>
    simp only [exec, execColorAt]
    cases h : s.pb.cellAt x y <;>
      simp [afterExec, respond, storeAfter, dataOf, framesOf, requestsOf, h]
  | _ => simp [exec, execPack, execUnpack, execInit, execGet, execSet, execBounds, execSetColor,
      execSer, execSerz, afterExec, respond, emit, storeAfter, dataOf, framesOf, requestsOf]

/-- What a command leaves, from its next state. -/
theorem exec_next {i : Instr} {s t : State} (h : exec i s = .next t) : t = afterExec i s := by
  rw [exec_eq] at h
  injection h with h
  exact h.symm

/-- A cell that a command may not write keeps its value. -/
theorem readCell_storeAfter {i : Instr} {k : Nat} (h : Instr.writesCell i k = false) (s : State) :
    (storeAfter i s).readCell k = s.pb.readCell k := by
  cases i with
  | set x y w =>
    simp only [Instr.writesCell, beq_eq_false_iff_ne] at h
    simp [storeAfter, readCell_setCellAt, h]
  | setColor x y a r g b =>
    simp only [Instr.writesCell, beq_eq_false_iff_ne] at h
    simp [storeAfter, readCell_setCellAt, h]
  | init => simp [Instr.writesCell] at h
  | loadImg => simp [Instr.writesCell] at h
  | _ => rfl

/-- Every command keeps the canonical form of the store. -/
theorem storeAfter_wf (i : Instr) {s : State} (h : s.pb.wf = true) : (storeAfter i s).wf = true := by
  cases i with
  | init => exact fillCells_wf h 0
  | set x y w => exact setCellAt_wf h x y w
  | setColor x y a r g b => exact setCellAt_wf h x y _
  | loadImg => exact loadImage_wf s.src h
  | _ => exact h

/-- Every frame a command emits has 128 bytes (R153). -/
theorem length_of_mem_framesOf {i : Instr} {s : State} {f : Frame} (h : f ∈ framesOf i s) :
    f.length = FRAMEBYTES := by
  cases i <;> simp only [framesOf, List.mem_singleton, List.not_mem_nil] at h <;>
    (rw [h]; exact serFrame_length _)

/-! ### The step -/

/-- The state before the decoded command: the move taken, its image on the source-pixel port. -/
def accept (s : State) (rest : List HostMove) (img : SourceImage) : State :=
  { s with pending := rest, src := img }

section Accept
variable (s : State) (rest : List HostMove) (img : SourceImage)

@[simp] theorem accept_pb : (accept s rest img).pb = s.pb := rfl
@[simp] theorem accept_src : (accept s rest img).src = img := rfl
@[simp] theorem accept_pending : (accept s rest img).pending = rest := rfl
@[simp] theorem accept_responses : (accept s rest img).responses = s.responses := rfl
@[simp] theorem accept_frames : (accept s rest img).frames = s.frames := rfl
@[simp] theorem accept_requests : (accept s rest img).requests = s.requests := rfl

end Accept

/-- A step with nothing presented. -/
theorem step_idle {s : State} (h : s.pending = []) : step s = .next s := by
  rw [step, takeMove_nothing h]

/-- A step that takes a reset. -/
theorem step_reset {s : State} {rest : List HostMove} (h : s.pending = .reset :: rest) :
    step s = .next (applyReset { s with pending := rest }) := by
  rw [step, takeMove_reset h]

/-- A step that takes a legal word. -/
theorem step_legal {s : State} {c : CmdWord} {img : SourceImage} {rest : List HostMove} {i : Instr}
    (h : s.pending = .command c img :: rest) (hd : decode c = .ok i) :
    step s = .next (afterExec i (accept s rest img)) := by
  rw [step, takeMove_command h, ← exec_eq]
  simp only [hd, accept]

/-- A step that takes a word that spells no command. -/
theorem step_illegal {s : State} {c : CmdWord} {img : SourceImage} {rest : List HostMove}
    {e : Illegal} (h : s.pending = .command c img :: rest) (hd : decode c = .error e) :
    step s = .next (respondIllegal (accept s rest img)) := by
  rw [step, takeMove_command h]
  simp only [hd, accept]

/-- Everything a step can do. -/
theorem step_cases {s t : State} (h : step s = .next t) :
    (s.pending = [] ∧ t = s) ∨
    (∃ rest, s.pending = .reset :: rest ∧ t = applyReset { s with pending := rest }) ∨
    (∃ c img rest i, s.pending = .command c img :: rest ∧ decode c = .ok i ∧
      t = afterExec i (accept s rest img)) ∨
    ∃ c img rest e, s.pending = .command c img :: rest ∧ decode c = .error e ∧
      t = respondIllegal (accept s rest img) := by
  rcases hp : s.pending with _ | ⟨m, rest⟩
  · rw [step_idle hp] at h
    injection h with h
    exact .inl ⟨rfl, h.symm⟩
  · cases m with
    | reset =>
      rw [step_reset hp] at h
      injection h with h
      exact .inr (.inl ⟨rest, rfl, h.symm⟩)
    | command c img =>
      cases hd : decode c with
      | ok i =>
        rw [step_legal hp hd] at h
        injection h with h
        exact .inr (.inr (.inl ⟨c, img, rest, i, rfl, hd, h.symm⟩))
      | error e =>
        rw [step_illegal hp hd] at h
        injection h with h
        exact .inr (.inr (.inr ⟨c, img, rest, e, rfl, hd, h.symm⟩))

/-! ### Runs -/

@[simp] theorem runSteps_zero (s : State) : runSteps 0 s = .next s := rfl

/-- A run begins with a step. -/
theorem runSteps_succ (k : Nat) {s t : State} (h : step s = .next t) :
    runSteps (k + 1) s = runSteps k t := by
  have hc : core.step s = .next t := h
  simp only [runSteps, Host.Core.run, hc]
  rfl

/-- A step takes one move of the host. -/
theorem step_pending {s t : State} (h : step s = .next t) : t.pending = s.pending.tail := by
  rcases step_cases h with ⟨hp, rfl⟩ | ⟨rest, hp, rfl⟩ | ⟨c, img, rest, i, hp, -, rfl⟩ |
    ⟨c, img, rest, e, hp, -, rfl⟩ <;> simp [hp]

end Sys2Proof.Machine
end

