-- ==== Sys2Proof/Laws/PerInstr.lean ====
section
/-! SUPPORT. Per instruction: the encoded word spells the instruction's own row of the opcode table (R75). -/

namespace Sys2Proof.Laws.EncodesItsRow

/-- `encode i & mask = match` for the mask and match of the row of `i`. -/
def Statement (i : Instr) : Prop := encode i &&& i.opcode.mask = i.opcode.matchBits

variable (x y : Int) (w : PackedColor) (a r g b : Byte)

/-- A word made of fields against a row whose mask is made of fields. -/
theorem of_fields {c m n : CmdWord} {op : BitVec 4} {x y mx my : BitVec 12}
    {a r g b ma mr mg mb : Byte} (hc : c = formatFull op 0 x y a r g b)
    (hm : m = formatFull 0xF 0xF mx my ma mr mg mb) (hn : n = formatFull op 0 0 0 0 0 0 0)
    (h : x &&& mx = 0 ∧ y &&& my = 0 ∧ a &&& ma = 0 ∧ r &&& mr = 0 ∧ g &&& mg = 0 ∧ b &&& mb = 0) :
    c &&& m = n := by
  rw [hc, hm, hn, formatFull_and, formatFull_inj]
  exact ⟨and_ones4 op, by decide, h⟩

theorem pack : Statement (.pack r g b) :=
  of_fields (mx := 0xFFF) (my := 0xFFF) (ma := 0xFF) (mr := 0) (mg := 0) (mb := 0)
    (formatC_eq _ _ _ _ _ _ _) rfl rfl (by simp)

theorem unpack : Statement (.unpack w) :=
  of_fields (mx := 0xFFF) (my := 0xFFF) (ma := 0xFF) (mr := 0xFF) (mg := 0) (mb := 0)
    (formatCWord_eq _ _ _ _) rfl rfl (by simp)

theorem init : Statement .init := rfl

theorem get : Statement (.get x y) :=
  of_fields (mx := 0) (my := 0) (ma := 0xFF) (mr := 0xFF) (mg := 0xFF) (mb := 0xFF)
    (formatC_eq _ _ _ _ _ _ _) rfl rfl (by simp)

theorem set : Statement (.set x y w) :=
  of_fields (mx := 0) (my := 0) (ma := 0xFF) (mr := 0xFF) (mg := 0) (mb := 0)
    (formatCWord_eq _ _ _ _) rfl rfl (by simp)

theorem bounds : Statement .bounds := rfl

theorem colorAt : Statement (.colorAt x y) :=
  of_fields (mx := 0) (my := 0) (ma := 0xFF) (mr := 0xFF) (mg := 0xFF) (mb := 0xFF)
    (formatC_eq _ _ _ _ _ _ _) rfl rfl (by simp)

theorem setColor : Statement (.setColor x y a r g b) :=
  of_fields (mx := 0) (my := 0) (ma := 0) (mr := 0) (mg := 0) (mb := 0)
    (formatC_eq _ _ _ _ _ _ _) rfl rfl (by simp)

theorem loadImg : Statement .loadImg := rfl

theorem ser : Statement .ser := rfl

theorem serz : Statement .serz := rfl

theorem serImg : Statement .serImg := rfl

end Sys2Proof.Laws.EncodesItsRow
end

