-- ==== Sys2Proof/Tests/Slice0.lean ====
section
/-! SUPPORT. The model's own tests: ill-formed commands, words decoded, one step of each command against the
vectors of spec/95_test_vectors.md, the text form, and a witness for the hypotheses of every statement. Every
expected value is the spec's (the vector or rule is named), never the model's own answer. -/

namespace Sys2Proof.Tests

open Sys2Proof.Machine Sys2Proof.Rules

/-! ### WellFormed: an ill-formed term for each check (R82) -/

theorem test_wf_get_x : (Instr.get 2048 0).wellFormed = false := by decide
theorem test_wf_get_y : (Instr.get 0 (-2049)).wellFormed = false := by decide
theorem test_wf_set_x : (Instr.set (-2049) 0 0).wellFormed = false := by decide
theorem test_wf_set_y : (Instr.set 0 2048 0).wellFormed = false := by decide
theorem test_wf_colorAt_x : (Instr.colorAt 2048 0).wellFormed = false := by decide
theorem test_wf_colorAt_y : (Instr.colorAt 0 2048).wellFormed = false := by decide
theorem test_wf_setColor_x : (Instr.setColor (-2049) 0 0 0 0 0).wellFormed = false := by decide
theorem test_wf_setColor_y : (Instr.setColor 0 (-2049) 0 0 0 0).wellFormed = false := by decide
theorem test_wf_bounds_of_range : (Instr.get 2047 (-2048)).wellFormed = true := by decide

/-! ### Decode: a word of each command, written out from R61 and R62 -/

/-- `OP = 0x1`, ZERO, X, Y, A all zero, R = 0x12, G = 0x34, B = 0x56. -/
theorem test_decode_pack :
    decode 0b0001_0000_000000000000_000000000000_00000000_00010010_00110100_01010110 =
      .ok (.pack 0x12 0x34 0x56) := by decide
/-- `OP = 0x2`, WORD = 0x11AA. -/
theorem test_decode_unpack :
    decode 0b0010_0000_000000000000_000000000000_00000000_00000000_0001000110101010 =
      .ok (.unpack 0x11AA) := by decide
/-- `OP = 0x3`. -/
theorem test_decode_init :
    decode 0b0011_0000_000000000000_000000000000_00000000_00000000_00000000_00000000 =
      .ok .init := by decide
/-- `OP = 0x4`, X = 2047, Y = -2048 (V2.8). -/
theorem test_decode_get :
    decode 0b0100_0000_011111111111_100000000000_00000000_00000000_00000000_00000000 =
      .ok (.get 2047 (-2048)) := by decide
/-- `OP = 0x5`, X = -1, Y = 1, WORD = 0xFFFF (V2.5). -/
theorem test_decode_set :
    decode 0b0101_0000_111111111111_000000000001_00000000_00000000_1111111111111111 =
      .ok (.set (-1) 1 0xFFFF) := by decide
/-- `OP = 0x6`. -/
theorem test_decode_bounds :
    decode 0b0110_0000_000000000000_000000000000_00000000_00000000_00000000_00000000 =
      .ok .bounds := by decide
/-- `OP = 0x7`, X = 3, Y = 5. -/
theorem test_decode_colorAt :
    decode 0b0111_0000_000000000011_000000000101_00000000_00000000_00000000_00000000 =
      .ok (.colorAt 3 5) := by decide
/-- `OP = 0x8`, X = 4, Y = 1, A = 0x7F, R = 0x12, G = 0x34, B = 0x56 (program P4). -/
theorem test_decode_setColor :
    decode 0b1000_0000_000000000100_000000000001_01111111_00010010_00110100_01010110 =
      .ok (.setColor 4 1 0x7F 0x12 0x34 0x56) := by decide
/-- `OP = 0x9`. -/
theorem test_decode_loadImg :
    decode 0b1001_0000_000000000000_000000000000_00000000_00000000_00000000_00000000 =
      .ok .loadImg := by decide
/-- `OP = 0xA`. -/
theorem test_decode_ser :
    decode 0b1010_0000_000000000000_000000000000_00000000_00000000_00000000_00000000 =
      .ok .ser := by decide
/-- `OP = 0xB`. -/
theorem test_decode_serz :
    decode 0b1011_0000_000000000000_000000000000_00000000_00000000_00000000_00000000 =
      .ok .serz := by decide
/-- `OP = 0xC`. -/
theorem test_decode_serImg :
    decode 0b1100_0000_000000000000_000000000000_00000000_00000000_00000000_00000000 =
      .ok .serImg := by decide

/-- V5.1 to V5.4: reserved operation codes. -/
theorem test_decode_reserved :
    [0x0000000000000000, 0xD000000000000000, 0xE000000000000000, 0xFFFFFFFFFFFFFFFF].map decode =
      List.replicate 4 (.error .reservedOp) := by decide
/-- V5.5 to V5.11: must-be-zero bits. -/
theorem test_decode_mustBeZero_first :
    [0x4000000000000001, 0x4100000000000000, 0x10000000FF123456, 0x1000100000123456,
      0x2000000000010000, 0x3000000000000001, 0x500030050001ABCD].map decode =
      List.replicate 7 (.error .mustBeZero) := by decide
/-- V5.12 to V5.17: must-be-zero bits. -/
theorem test_decode_mustBeZero_rest :
    [0x8800200280ABCDEF, 0xA000000000000001, 0x6000100000000000, 0x9000000000000100,
      0xB000000100000000, 0xC000000000000080].map decode =
      List.replicate 6 (.error .mustBeZero) := by decide
/-- Program P3: the encoder on negative coordinates. -/
theorem test_encode_setColor :
    encode (.setColor (-1) 0 0xFF 0xFF 0xFF 0xFF) = 0x80FFF000FFFFFFFF := by decide
/-- The host's numbering is the command word's (R8, R60). -/
theorem test_decodeTableWord : decodeTableWord 64 0x500030050000ABCD = some (.set 3 5 0xABCD) := by
  decide

/-! ### One step of each command -/

/-- The state after one more command word, from `s`. -/
def after (c : Nat) (s : State) : State :=
  match step (s.withFetchWord 64 c) with
  | .next t => t
  | .fault _ => s
  | .refused _ => s

/-- The reset state with a store in place. -/
def withStore (m : Memory) : State := { State.reset with pb := m }

/-- The reset state with one colour on all of the source-pixel port. -/
def uniform (p : Pixel) : State :=
  { State.reset with src := ⟨Vector.replicate 8 (Vector.replicate 8 p)⟩ }

/-- The reset state with one pixel at `(1, 0)` and another everywhere else (V3.13, V4.8). -/
def onePixel (p q : Pixel) : State :=
  { State.reset with src :=
      ⟨(Vector.replicate 8 (Vector.replicate 8 q)).set 0 ((Vector.replicate 8 q).set 1 p)⟩ }

/-- V1.8: half a step in every channel; a rounding quantizer would give 0x0821. -/
theorem test_pack_truncates :
    (after 0x1000000000040204 .reset).responses = [0x000000000] := by decide
/-- V1.14. -/
theorem test_pack_mixed :
    (after 0x1000000000ABCDEF .reset).responses = [0x00000AE7D] := by decide
/-- V1.18: a bit-replicating dequantizer would give 0x000FFFFFF. -/
theorem test_unpack_white :
    (after 0x200000000000FFFF .reset).responses = [0x000F8FCF8] := by decide
/-- V1.32. -/
theorem test_unpack_mixed :
    (after 0x2000000000001234 .reset).responses = [0x0001044A0] := by decide
/-- V2.10: INIT after a write. -/
theorem test_init_clears :
    (after 0x3000000000000000 (withStore [(86, 0xCD), (87, 0xAB)])).pb = [] := by decide +kernel
/-- R111: `PB[43] = 0xABCD`, that is bytes 86 and 87 (V4.3). -/
theorem test_get_cell :
    (after 0x4000300500000000 (withStore [(86, 0xCD), (87, 0xAB)])).responses = [0x00000ABCD] := by
  decide
/-- Program P3, step 9: `GET 8, 0` does not read cell `(0, 1)`. -/
theorem test_get_does_not_alias :
    (after 0x4000800000000000 (withStore [(16, 0x78), (17, 0x56)])).responses = [0x000000000] := by
  decide
/-- V2.3: `SET 5, 3, 0x1234` writes `PB[29]`, bytes 58 and 59. -/
theorem test_set_cell :
    (after 0x5000500300001234 .reset).pb = [(58, 0x34), (59, 0x12)] := by decide
/-- V2.5: `SET -1, 1` does not reach cell `(7, 0)`. -/
theorem test_set_does_not_alias :
    (after 0x50FFF0010000FFFF .reset).pb = [] := by decide
/-- V3.1. -/
theorem test_bounds : (after 0x6000000000000000 .reset).responses = [0x000000808] := by decide
/-- R132: `PB[18] = 0xAE7D` (V3.5). -/
theorem test_colorAt_cell :
    (after 0x7000200200000000 (withStore [(36, 0x7D), (37, 0xAE)])).responses = [0x0FFA8CCE8] := by
  decide
/-- V3.2 and V3.3: in-range black is opaque, out of range is absent. -/
theorem test_colorAt_black_and_absent :
    (after 0x7000800800000000 (after 0x7000000000000000 .reset)).responses =
      [0x0FF000000, 0x000000000] := by decide
/-- V3.6: alpha 0 writes all the same. -/
theorem test_setColor_ignores_alpha :
    (after 0x8000200200ABCDEF .reset).pb = [(36, 0x7D), (37, 0xAE)] := by decide
/-- V3.9. -/
theorem test_setColor_out_of_range :
    (after 0x80FFF000FFFFFFFF .reset).pb = [] := by decide
/-- V3.13: the source's `x` goes to the cell's `x`: `PB[1] = 0xF800` only. -/
theorem test_loadImg_coordinates :
    (after 0x9000000000000000 (onePixel 0xFFFF0000 0xFF000000)).pb = [(3, 0xF8)] := by
  decide +kernel
/-- R134: 64 requests, `(1, 0)` the second and `(0, 1)` the ninth. -/
theorem test_loadImg_requests :
    let q := (after 0x9000000000000000 .reset).requests
    q.length = 64 ∧ q[1]? = some ⟨1, 0⟩ ∧ q[8]? = some ⟨0, 1⟩ ∧ q[63]? = some ⟨7, 7⟩ := by
  decide +kernel
/-- Program P1: the red and blue corners. -/
theorem test_ser_corners :
    (after 0xA000000000000000 (withStore [(1, 0xF8), (126, 0x1F)])).frames =
      [[0x00, 0xF8] ++ List.replicate 124 0x00 ++ [0x1F, 0x00]] := by decide +kernel
/-- V4.6: SERZ emits zeros and keeps the store. -/
theorem test_serz_keeps_store :
    let t := after 0xB000000000000000 (withStore [(1, 0xF8)])
    t.frames = [List.replicate 128 0x00] ∧ t.pb = [(1, 0xF8)] := by decide +kernel
/-- V4.8: the pixel at `(1, 0)` is at offset 3, and the store is untouched. -/
theorem test_serImg_position :
    let t := after 0xC000000000000000 (onePixel 0xFFFF0000 0xFF000000)
    t.frames = [List.replicate 3 0x00 ++ [0xF8] ++ List.replicate 124 0x00] ∧ t.pb = [] := by
  decide +kernel
/-- V4.9: white with alpha 0. -/
theorem test_serImg_ignores_alpha :
    (after 0xC000000000000000 (uniform 0x00FFFFFF)).frames = [List.replicate 128 0xFF] := by
  decide +kernel
/-- V5.13: an illegal word responds ILLEGAL and emits nothing. -/
theorem test_illegal_response :
    after 0xA000000000000001 .reset = { State.reset with responses := [0x100000000] } := by decide

/-! ### The text form (R82) -/

/-- R112's worked example, with a comment. -/
theorem test_text_set :
    Assembly.assembleLine "SET -1, 0, 0xFFFF ; dropped".toList = .ok (some (.set (-1) 0 0xFFFF)) := by
  decide
/-- `SETRGB x, y, r, g, b` = `SETCOLOR x, y, 0xFF, r, g, b`. -/
theorem test_text_setRgb :
    Assembly.assembleLine "SETRGB 2, 2, 0xAB, 0xCD, 0xEF".toList =
      .ok (some (.setColor 2 2 0xFF 0xAB 0xCD 0xEF)) := by decide
/-- An operand outside its range has no encoding. -/
theorem test_text_out_of_range :
    Assembly.assembleLine "GET 2048, 0".toList = .error .noEncoding := by decide
theorem test_text_negative_channel :
    Assembly.assembleLine "PACK -1, 0, 0".toList = .error .noEncoding := by decide

/-! ### Witnesses: the hypotheses of every statement can be met

Named after the statement. Statements without hypotheses have none here. -/

theorem witness_PackRespondsTheTruncatedWord :
    (0x1000000000FFFFFF : CmdWord) &&& 0xFFFFFFFFFF000000 = 0x1000000000000000 := by decide
theorem witness_UnpackRespondsTheShiftedFields :
    (0x200000000000FFFF : CmdWord) &&& 0xFFFFFFFFFFFF0000 = 0x2000000000000000 := by decide
theorem witness_GetRespondsTheCellOrZero :
    (0x407FF80000000000 : CmdWord) &&& 0xFF000000FFFFFFFF = 0x4000000000000000 := by decide
theorem witness_SetWritesTheCellOrNothing :
    (0x500070070000FFFF : CmdWord) &&& 0xFF000000FFFF0000 = 0x5000000000000000 ∧
      inBounds 7 7 ∧ inBounds 0 0 ∧ ¬ inBounds 8 7 ∧ ¬ inBounds 7 8 ∧ ¬ inBounds (-1) 0 ∧
      ¬ inBounds 0 (-1) := by decide
theorem witness_ColorAtRespondsTheColourOrAbsent :
    (0x70FFFFFF00000000 : CmdWord) &&& 0xFF000000FFFFFFFF = 0x7000000000000000 := by decide
theorem witness_SetColorWritesTheQuantizedCell :
    (0x80FFFFFFFFFFFFFF : CmdWord) &&& 0xFF00000000000000 = 0x8000000000000000 := by decide

/-- Both clauses of the frame, at cells 63 and outside. -/
theorem witness_StoringCommandsChangeOnlyTheirCell :
    (∃ t, exec (.set 7 7 0xABCD) .reset = .next t) ∧
      (∃ t, exec (.setColor 8 0 1 2 3 4) .reset = .next t) ∧
      addresser 7 7 = some 63 ∧ addresser 0 0 = some 0 ∧ addresser 8 0 = none :=
  ⟨⟨_, exec_eq _ _⟩, ⟨_, exec_eq _ _⟩, by decide⟩

theorem witness_OtherCommandsKeepTheStore :
    (∃ t, exec (.pack 1 2 3) .reset = .next t) ∧ (∃ t, exec (.unpack 1) .reset = .next t) ∧
      (∃ t, exec (.get 7 7) .reset = .next t) ∧ (∃ t, exec .bounds .reset = .next t) ∧
      (∃ t, exec (.colorAt 8 8) .reset = .next t) ∧ (∃ t, exec .ser .reset = .next t) ∧
      (∃ t, exec .serz .reset = .next t) ∧ ∃ t, exec .serImg .reset = .next t :=
  ⟨⟨_, exec_eq _ _⟩, ⟨_, exec_eq _ _⟩, ⟨_, exec_eq _ _⟩, ⟨_, exec_eq _ _⟩, ⟨_, exec_eq _ _⟩,
    ⟨_, exec_eq _ _⟩, ⟨_, exec_eq _ _⟩, ⟨_, exec_eq _ _⟩⟩

/-- The reset state with moves of the host to come. -/
def withMoves (l : List HostMove) : State := { State.reset with pending := l }

theorem witness_StepRunsTheDecodedCommand :
    (withMoves [.command 0x500030050000ABCD .idle]).pending =
        .command 0x500030050000ABCD .idle :: [] ∧
      decode 0x500030050000ABCD = .ok (.set 3 5 0xABCD) := by decide

/-- A word is spelled by none of the twelve rows when it is by none of them one after the other. -/
theorem not_spellsCommand {c : CmdWord} (h : table.all (fun row => c &&& row.2 != row.1) = true) :
    ¬ spellsCommand c := by
  rintro ⟨row, hrow, he⟩
  simpa [he] using List.all_eq_true.1 h row hrow

theorem witness_IllegalWordOnlyRespondsIllegal :
    (withMoves [.command 0x4000000000000001 .idle, .reset]).pending =
        .command 0x4000000000000001 .idle :: [.reset] ∧
      ¬ spellsCommand 0x4000000000000001 ∧ ¬ spellsCommand 0xD000000000000000 :=
  ⟨by decide, not_spellsCommand (by decide), not_spellsCommand (by decide)⟩

theorem witness_ResetMoveBlackensTheStore :
    (withMoves [.reset, .command 0 .idle]).pending = .reset :: [.command 0 .idle] := by decide

theorem witness_IdleBlockHoldsItsState : (withStore [(1, 0xF8)]).pending = [] := by decide

theorem witness_InitLeavesTheResetStore :
    (withStore [(0, 1), (127, 0xFF)]).pb.wf = true := by decide

theorem witness_LegalWordsAndCommandsCorrespond :
    (Instr.set (-2048) 2047 0xFFFF).wellFormed = true ∧
      decode 0x80FFF000FFFFFFFF = .ok (.setColor (-1) 0 0xFF 0xFF 0xFF 0xFF) := by decide

theorem witness_TableRowsAreDisjoint :
    Opcode.get ≠ .set ∧ Opcode.get.spelledBy 0x4000300500000000 = true := by decide

/-- A word with a reserved OP, and words at both ends of the codes that name a command. -/
theorem witness_DecoderAcceptsExactlyTheTable :
    ((0xD000000000000000 : CmdWord).extractLsb' 60 4 = 0xD) ∧ ¬ spellsCommand 0x1100000000000000 ∧
      ¬ spellsCommand 0xC000000000000080 ∧
      (0x1000000000123456 : CmdWord) &&& 0xFFFFFFFFFF000000 = 0x1000000000000000 :=
  ⟨by decide, not_spellsCommand (by decide), not_spellsCommand (by decide), by decide⟩

theorem witness_PackTruncates : (0x04 : Byte) ≤ 0x0C ∧ (0x02 : Byte) ≤ 0x02 ∧ (0x00 : Byte) ≤ 0xFF := by
  decide

/-- The clauses of the addresser at the ends of its ranges. -/
theorem witness_AddresserIsBoundedAndRowMajor :
    addresser 0 0 = some 0 ∧ addresser 7 7 = some 63 ∧ addresser 7 0 = some 7 ∧
      addresser (0x007 : BitVec 12).toInt (0x000 : BitVec 12).toInt = some 7 := by decide

theorem witness_OneCellIsTwoBytesOfTheFrame :
    ∀ k < 64, k ≠ 63 → Memory.readCell [(127, 0xAB)] k = Memory.readCell [] k := by decide

theorem witness_FrameBytesHoldTheColourFields :
    Memory.readCell [(126, 0x7D), (127, 0xAE)] 63 =
      (0b10101 : BitVec 5) ++ (0b110011 : BitVec 6) ++ (0b11101 : BitVec 5) := by decide

theorem witness_SetThenGetIsExact :
    inBounds 7 7 ∧ inBounds 0 0 ∧ ((0, 0) : Int × Int) ≠ (7, 7) := by decide

theorem witness_OutOfRangeReadsDefaultAndWritesNothing :
    ¬ inBounds 8 0 ∧ ¬ inBounds 0 8 ∧ ¬ inBounds (-1) 1 ∧ ¬ inBounds 1 (-1) := by decide

theorem witness_WideColourRoundTripIsLossy :
    inBounds 0 7 ∧ ((7, 0) : Int × Int) ≠ (0, 7) ∧
      ∀ q, (uniform 0xFFFFFFFF).src.pixel q = 0xFFFFFFFF :=
  ⟨by decide, by decide, fun q => by simp [uniform, SourceImage.pixel]⟩

theorem witness_WritesAreIdempotent :
    (withStore [(86, 0xCD), (87, 0xAB)]).pb.wf = true ∧
      ∃ t u, exec (.set 3 5 0xFFFF) (withStore [(86, 0xCD), (87, 0xAB)]) = .next t ∧
        exec (.set 3 5 0xFFFF) t = .next u :=
  ⟨by decide, _, _, exec_eq _ _, exec_eq _ _⟩

/-- Two images that differ in every alpha and in nothing else. -/
theorem witness_AlphaIsDiscarded :
    (uniform 0x00ABCDEF) = { uniform 0xFFABCDEF with src := (uniform 0x00ABCDEF).src } ∧
      (∀ q, ((uniform 0xFFABCDEF).src.pixel q).extractLsb' 0 24 =
        ((uniform 0x00ABCDEF).src.pixel q).extractLsb' 0 24) ∧
      (∃ t, exec .loadImg (uniform 0xFFABCDEF) = .next t) ∧
      ∃ t, exec .serImg (uniform 0x00ABCDEF) = .next t :=
  ⟨rfl, fun q => by simp [uniform, SourceImage.pixel], ⟨_, exec_eq _ _⟩, ⟨_, exec_eq _ _⟩⟩

/-- A state with content and outputs of each kind, a command to come, and its step. -/
theorem witness_EveryStepKeepsTheInvariant :
    ∃ s t, Inv s ∧ s.pb = [(1, 0xF8)] ∧ s.frames ≠ [] ∧ s.responses ≠ [] ∧ step s = .next t := by
  let s : State := { State.reset with
    pb := [(1, 0xF8)], frames := [List.replicate 128 0],
    responses := [0x100000000, 0x0FF000000], pending := [.command 0x5000100000001234 .idle] }
  refine ⟨s, _, ⟨by decide, ?_, ?_⟩, rfl, by simp [s], by simp [s],
    step_legal rfl (i := .set 1 0 0x1234) (by decide)⟩
  · simp [s, FRAMEBYTES_eq]
  · simp only [s, List.forall_mem_cons]
    exact ⟨by decide, by decide, by simp⟩

theorem witness_EveryCommandRespondsOnce :
    (withMoves [.command 0 .idle]).pending = .command 0 .idle :: [] := by decide

theorem witness_OnlySerializersUseTheWire :
    (∃ t, exec .ser .reset = .next t) ∧ (∃ t, exec .serz .reset = .next t) ∧
      (∃ t, exec .serImg .reset = .next t) ∧ ∃ t, exec .init .reset = .next t :=
  ⟨⟨_, exec_eq _ _⟩, ⟨_, exec_eq _ _⟩, ⟨_, exec_eq _ _⟩, ⟨_, exec_eq _ _⟩⟩

/-- A wire with two frames on it. -/
theorem witness_WireBytesCarryTheirOffsets :
    (∀ f ∈ (after 0xB000000000000000 (after 0xA000000000000000 .reset)).frames, f.length = 128) ∧
      (after 0xB000000000000000 (after 0xA000000000000000 .reset)).frames.length = 2 := by
  decide +kernel

/-- Each clause: a step that changes the last cell, one that reads the source and uses the wire, and both
respond. -/
theorem witness_OnlyNamedMovesTouchEachPort :
    ((after 0x500070070000FFFF .reset).pb.readCell 63 ≠ State.reset.pb.readCell 63 ∧
      (after 0x500070070000FFFF .reset).responses ≠ State.reset.responses) ∧
    ((after 0xC000000000000000 .reset).requests ≠ State.reset.requests ∧
      (after 0xC000000000000000 .reset).frames ≠ State.reset.frames) := by decide +kernel

theorem witness_OutputsAreNeverTakenBack :
    ∃ t, runSteps 1 (withMoves [.command 0xB000000000000000 .idle]) = .next t :=
  ⟨_, (runSteps_succ 0 (step_legal rfl (i := .serz) (by decide))).trans (runSteps_zero _)⟩

theorem witness_StoreFreeCommandsIgnoreTheStore :
    (∃ t, exec (.pack 1 2 3) .reset = .next t) ∧ (∃ t, exec (.unpack 1) .reset = .next t) ∧
      (∃ t, exec .bounds .reset = .next t) ∧ (∃ t, exec .serz .reset = .next t) ∧
      ∃ t, exec .serImg .reset = .next t :=
  ⟨⟨_, exec_eq _ _⟩, ⟨_, exec_eq _ _⟩, ⟨_, exec_eq _ _⟩, ⟨_, exec_eq _ _⟩, ⟨_, exec_eq _ _⟩⟩

theorem witness_SourceImageIsReadOnlyByBulkCommands :
    Instr.ser ≠ .loadImg ∧ Instr.ser ≠ .serImg ∧ ∃ t, exec .ser .reset = .next t :=
  ⟨by decide, by decide, _, exec_eq _ _⟩

theorem witness_EarlierImageDoesNotReachALaterCommand :
    (withMoves [.command 0xC000000000000000 .idle]).pending ≠ [] := by decide

/-- Between the write and the read: a write of another cell, an illegal word and a serializer command. -/
theorem witness_LastWriteIsReadBack :
    inBounds 7 7 ∧
      ∀ m ∈ (withMoves [.command 0x500000000000FFFF .idle, .command 0x4000000000000001 .idle,
          .command 0xC000000000000000 .idle, .reset]).pending.take 3,
        m.writesCell (Idx 7 7) = false := by decide

theorem witness_RunAnswersEveryCommand :
    ∀ m ∈ (withMoves [.reset, .command 0x500000000000FFFF .idle]).pending, m.legal = true := by
  decide

theorem witness_AssembledLinesEncode :
    Assembly.assembleLine "SETCOLOR -2048, 2047, 0, 255, 0, 0xff".toList =
      .ok (some (.setColor (-2048) 2047 0 255 0 255)) := by decide

/-- Each clause at the ends of its range. -/
theorem witness_OperandRangesAndNamesAreThoseOfTheText :
    Assembly.Number.channel ⟨false, 255⟩ = some 0xFF ∧ Assembly.Number.channel ⟨false, 256⟩ = none ∧
      Assembly.Number.word ⟨false, 65535⟩ = some 0xFFFF ∧ Assembly.Number.word ⟨false, 65536⟩ = none ∧
      Assembly.Number.coord ⟨true, 2048⟩ = some (-2048) ∧ Assembly.Number.coord ⟨false, 2048⟩ = none ∧
      Assembly.findName "SERIMG".toList Assembly.names = some (.command .serImg) ∧
      Assembly.findName "SERI".toList Assembly.names = none := by decide

/-- The word of `SET -1, 1, 0xFFFF` (V2.5). -/
theorem witness_TextEncodesItsOperands :
    textEncodes (.command .set) [⟨true, 1⟩, ⟨false, 1⟩, ⟨false, 0xFFFF⟩] 0x50FFF0010000FFFF ∧
      isCoord ⟨true, 1⟩ 0xFFF ∧ isCoord ⟨false, 1⟩ 0x001 ∧
      isUnsigned ⟨false, 0xFFFF⟩ (0xFFFF : PackedColor) :=
  ⟨⟨.set (-1) 1 0xFFFF, by decide, by decide⟩, by unfold isCoord; decide, by unfold isCoord; decide,
    by unfold isUnsigned; decide⟩

theorem witness_LinesAreANameOperandsAndAComment :
    ("GET", Assembly.TextOp.command .get) ∈ textNames ∧
      isPiece ['-', '1'] ∧ isPiece ['0', 'x', '7'] ∧
      [['-', '1'], ['0', 'x', '7']].mapM Assembly.parseNumber = some [⟨true, 1⟩, ⟨false, 7⟩] :=
  ⟨by decide, by simp [isPiece], by simp [isPiece], by rfl⟩

end Sys2Proof.Tests
end

section
/-! The step as R6 and R7 describe it: it runs the decoded command, and it always answers a next state. -/

namespace Sys2Proof

/-- The operands of a word are in range: a coordinate is read from its 12-bit field (R63). -/
theorem wellFormed_operands (op : Opcode) (c : CmdWord) : (op.operands c).wellFormed = true := by
  cases op with
  | get | set | colorAt | setColor => simp [Opcode.operands, Instr.wellFormed, coordOk_toInt]
  | pack | unpack | init | bounds | loadImg | ser | serz | serImg => rfl

/-- The decoder accepts well-formed commands only (R65). -/
theorem wellFormed_of_decode {c : CmdWord} {i : Instr} (h : decode c = .ok i) :
    i.wellFormed = true := by
  obtain ⟨op, -, rfl⟩ := decode_eq_ok_iff.1 h
  exact wellFormed_operands op c

namespace Machine

/-- A step that takes a legal word is `exec` of the decoded command (R6). -/
theorem step_eq_exec {s : State} {c : CmdWord} {img : SourceImage} {rest : List HostMove}
    {i : Instr} (h : s.pending = .command c img :: rest) (hd : decode c = .ok i) :
    step s = exec i (accept s rest img) :=
  (step_legal h hd).trans (exec_eq i _).symm

/-- Settles O15: the step is `exec` of the decoded command, and the decoder accepts only well-formed ones. -/
theorem stepRunsTheDecodedCommand : Obligations.StepRunsTheDecodedCommand :=
  fun _ _ _ _ _ h hd => ⟨step_eq_exec h hd, wellFormed_of_decode hd⟩

/-- Settles O19, by cases on the host's next move and, for a command word, on what it decodes to. -/
theorem everyStepAnswersANextState : Obligations.EveryStepAnswersANextState := by
  intro s
  rcases hp : s.pending with _ | ⟨_ | ⟨c, img⟩, rest⟩
  case nil => exact ⟨_, step_idle hp⟩
  case cons.reset => exact ⟨_, step_reset hp⟩
  case cons.command =>
    cases hd : decode c with
    | ok i => exact ⟨_, step_legal hp hd⟩
    | error e => exact ⟨_, step_illegal hp hd⟩

end Machine
end Sys2Proof
end

section
/-! The store and the ports as the state of BH565 (spec/10_state.md): every step keeps the invariant, which commands
leave the store alone and which do not look at it, the reset state, and the image of an earlier command. -/

namespace Sys2Proof.Machine

/-! ### The invariant, one lemma per kind of step -/

/-- Every command keeps the invariant. -/
theorem afterExec_inv {s : State} (h : Inv s) (i : Instr) : Inv (afterExec i s) where
  store := storeAfter_wf i h.store
  frames := List.forall_mem_append.2 ⟨h.frames, fun _ => length_of_mem_framesOf⟩
  responses := List.forall_mem_append.2 ⟨h.responses, by simp⟩

/-- The ILLEGAL response has DATA zero (R66), so it keeps the invariant. -/
theorem respondIllegal_inv {s : State} (h : Inv s) : Inv (respondIllegal s) where
  store := h.store
  frames := h.frames
  responses := List.forall_mem_append.2 ⟨h.responses, by simp⟩

/-- Reset gives the empty store, and what has gone out stands (R190). -/
theorem applyReset_inv {s : State} (h : Inv s) : Inv (applyReset s) where
  store := wf_nil
  frames := h.frames
  responses := h.responses

/-- The invariant is about the store and the outputs, not about the host's moves or the image. -/
theorem accept_inv {s : State} (h : Inv s) (rest : List HostMove) (img : SourceImage) :
    Inv (accept s rest img) :=
  ⟨h.store, h.frames, h.responses⟩

/-- Settles O42, by the four things a step can do. -/
theorem everyStepKeepsTheInvariant : Obligations.EveryStepKeepsTheInvariant := by
  intro s t hs h
  rcases step_cases h with ⟨-, rfl⟩ | ⟨rest, -, rfl⟩ | ⟨-, img, rest, i, -, -, rfl⟩ |
    ⟨-, img, rest, -, -, -, rfl⟩
  · exact hs
  · exact applyReset_inv (accept_inv hs rest s.src)
  · exact afterExec_inv (accept_inv hs rest img) i
  · exact respondIllegal_inv (accept_inv hs rest img)

/-! ### Commands that leave a port or the store alone -/

/-- Only the serializer commands emit a frame (R72). -/
theorem framesOf_eq_nil {i : Instr} (hser : i ≠ .ser) (hserz : i ≠ .serz) (himg : i ≠ .serImg)
    (s : State) : framesOf i s = [] := by
  cases i with
  | ser => exact absurd rfl hser
  | serz => exact absurd rfl hserz
  | serImg => exact absurd rfl himg
  | _ => rfl

/-- Only the bulk commands read the source (R70). -/
theorem requestsOf_eq_nil {i : Instr} (hload : i ≠ .loadImg) (himg : i ≠ .serImg) :
    requestsOf i = [] := by
  cases i with
  | loadImg => exact absurd rfl hload
  | serImg => exact absurd rfl himg
  | _ => rfl

/-- A command that may write no cell leaves the store as it is, an out-of-range SET or SETCOLOR too (R51). -/
theorem storeAfter_eq_of_writesNoCell {i : Instr} (h : ∀ k, Instr.writesCell i k = false) (s : State) :
    storeAfter i s = s.pb := by
  have outOfRange {x y : Int} (hk : ∀ k, (addresser x y == some k) = false) :
      addresser x y = none :=
    Option.eq_none_iff_forall_ne_some.2 fun k => beq_eq_false_iff_ne.1 (hk k)
  cases i with
  | init | loadImg => exact absurd (h 0) (by decide)
  | set x y w => exact setCellAt_of_none (outOfRange h) w
  | setColor x y a r g b => exact setCellAt_of_none (outOfRange h) _
  | _ => rfl

/-- Settles O14: none of the eight may write a cell or is LOADIMG; the rest is by field. -/
theorem otherCommandsKeepTheStore : Obligations.OtherCommandsKeepTheStore := by
  intro i s t hi h
  obtain rfl := exec_next h
  have hwrites : ∀ k, Instr.writesCell i k = false := by
    rcases hi with ⟨_, _, _, rfl⟩ | ⟨_, rfl⟩ | ⟨_, _, rfl⟩ | rfl | ⟨_, _, rfl⟩ | rfl | rfl | rfl <;>
      exact fun _ => rfl
  have hload : i ≠ .loadImg := by
    rintro rfl
    exact absurd (hwrites 0) (by decide)
  have hpb : (afterExec i s).pb = s.pb := storeAfter_eq_of_writesNoCell hwrites s
  refine ⟨fun a => by rw [hpb], hpb, rfl, rfl, List.prefix_append _ _,
    fun hser hserz himg => ?_, fun himg => ?_⟩
  · rw [afterExec_frames, framesOf_eq_nil hser hserz himg, List.append_nil]
  · rw [afterExec_requests, requestsOf_eq_nil hload himg, List.append_nil]

/-- Settles O49: for each of the five, the store appears in no other field of the next state. -/
theorem storeFreeCommandsIgnoreTheStore : Obligations.StoreFreeCommandsIgnoreTheStore := by
  intro i s t m hi h
  obtain rfl := exec_next h
  rw [exec_eq]
  rcases hi with ⟨_, _, _, rfl⟩ | ⟨_, rfl⟩ | rfl | rfl | rfl <;> rfl

/-! ### Reset, and the image of an earlier command -/

/-- Settles O20: the store at reset and the blank store have no entry, and an unlisted byte reads as zero. -/
theorem resetStateIsBlackAndIdle : Obligations.ResetStateIsBlackAndIdle :=
  ⟨fun k _ => readCell_nil k, fun k _ => readCell_nil k, reset_responses, reset_frames,
    reset_requests⟩

/-- Settles O51: reset sets the image, and a command word comes with its own. -/
theorem earlierImageDoesNotReachALaterCommand :
    Obligations.EarlierImageDoesNotReachALaterCommand := by
  intro s img hne
  rcases hp : s.pending with _ | ⟨_ | ⟨c, own⟩, rest⟩
  case nil => exact absurd hp hne
  case cons.reset => exact (step_reset rfl).trans (step_reset hp).symm
  case cons.command =>
    cases hd : decode c with
    | ok i => exact (step_legal rfl hd).trans (step_legal hp hd).symm
    | error e => exact (step_illegal rfl hd).trans (step_illegal hp hd).symm

end Sys2Proof.Machine
end

section
/-! The pixel store by the rules of spec/20_memory.md: the addresser on integers and on 12-bit fields, the bytes of a
frame, repeated commands, and what stands through a run. -/

namespace Sys2Proof.Machine

open Sys2Proof.Config Sys2Proof.Rules

/-! ### The addresser (R44, R45) -/

/-- The bounds check of R45 is the one the addresser makes. -/
theorem inRange_iff_inBounds {x y : Int} : InRange x y ↔ inBounds x y := by
  simp only [InRange, W, H]
  omega

/-- Inside the rectangle the addresser gives the index of R44. -/
theorem addresser_of_inBounds {x y : Int} (h : inBounds x y) : addresser x y = some (Idx x y) :=
  if_pos (inRange_iff_inBounds.2 h)

/-- A field is a coordinate from 0 to 7 exactly when its unsigned value is below 8. -/
theorem toInt_mem_rectangle_iff (X : BitVec 12) : (0 ≤ X.toInt ∧ X.toInt < 8) ↔ X.toNat < 8 := by
  rw [BitVec.toInt_eq_toNat_cond]
  split <;> omega

/-- A field below 8 has its sign bit clear, so it is read as it is written (R63). -/
theorem toInt_eq_toNat_of_lt_eight {X : BitVec 12} (h : X.toNat < 8) : X.toInt = X.toNat :=
  BitVec.toInt_eq_toNat_of_lt (by omega)

/-- The upper nine bits of a field are zero exactly when it is below 8. -/
theorem upperBits_eq_zero_iff (X : BitVec 12) : X.extractLsb' 3 9 = 0 ↔ X.toNat < 8 := by
  rw [← BitVec.toNat_inj, toNat_slice]
  simp only [BitVec.ofNat_eq_ofNat, BitVec.toNat_ofNat]
  omega

/-- The bounds check on two fields, by their unsigned values. -/
theorem inBounds_toInt_iff (X Y : BitVec 12) :
    inBounds X.toInt Y.toInt ↔ X.toNat < 8 ∧ Y.toNat < 8 := by
  rw [← toInt_mem_rectangle_iff, ← toInt_mem_rectangle_iff, and_assoc]

/-- The index is the lower three bits of `Y` over those of `X` (R44). -/
theorem index_eq_lowerBits {X Y : BitVec 12} {i : Nat}
    (h : addresser X.toInt Y.toInt = some i) :
    BitVec.ofNat 6 i = Y.extractLsb' 0 3 ++ X.extractLsb' 0 3 := by
  obtain ⟨hr, hi⟩ := addresser_eq_some_iff.1 h
  obtain ⟨hX, hY⟩ := (inBounds_toInt_iff X Y).1 (inRange_iff_inBounds.1 hr)
  rw [toInt_eq_toNat_of_lt_eight hX, toInt_eq_toNat_of_lt_eight hY] at hi
  refine BitVec.eq_of_toNat_eq ?_
  rw [BitVec.toNat_ofNat, toNat_append_eq, toNat_slice, toNat_slice]
  omega

/-- Settles O30, from `addresser_eq_some_iff`, with the fields read as numbers below 8. -/
theorem addresserIsBoundedAndRowMajor : Obligations.AddresserIsBoundedAndRowMajor := by
  have haccepts (x y : Int) (i : Nat) :
      addresser x y = some i ↔ inBounds x y ∧ (i : Int) = y * 8 + x := by
    rw [addresser_eq_some_iff, inRange_iff_inBounds]
  refine ⟨haccepts, fun x y i h => ?_, fun i hi => (haccepts _ _ _).2 (by omega), fun X Y => ?_,
    fun _ _ _ => index_eq_lowerBits, by decide, by decide⟩
  · have := (haccepts x y i).1 h
    omega
  · rw [upperBits_eq_zero_iff, upperBits_eq_zero_iff, ← inBounds_toInt_iff]
    constructor
    · rintro ⟨i, h⟩
      exact ((haccepts _ _ i).1 h).1
    · exact fun h => ⟨_, addresser_of_inBounds h⟩

/-! ### The bytes of a frame (R46, R47, R52) -/

/-- Settles O31: byte `k` is one of the two bytes of cell `k / 2`, by the parity of `k`. -/
theorem frameIsLittleEndianRowMajor : Obligations.FrameIsLittleEndianRowMajor := by
  intro P
  refine ⟨serFrame_length P, fun k hk => ?_⟩
  obtain ⟨hlow, hhigh⟩ := serFrame_getElem? P (i := k / 2) (by rw [NCELL_eq]; omega)
  split
  · rwa [show 2 * (k / 2) = k by omega] at hlow
  · rwa [show 2 * (k / 2) + 1 = k by omega] at hhigh

/-- A packed word by its fields, as a number (R21). -/
theorem toNat_colourFields (r : BitVec 5) (g : BitVec 6) (b : BitVec 5) :
    (r ++ g ++ b).toNat = (r.toNat * 64 + g.toNat) * 32 + b.toNat := by
  simp only [toNat_append_eq, Nat.reducePow]

/-- The lower byte of a packed word: the lower three bits of green, and blue (R52). -/
theorem lowByte_colourFields (r : BitVec 5) (g : BitVec 6) (b : BitVec 5) :
    lowByte (r ++ g ++ b) = g.extractLsb' 0 3 ++ b := by
  have := b.isLt
  refine BitVec.eq_of_toNat_eq ?_
  rw [lowByte, toNat_slice, toNat_colourFields, toNat_append_eq, toNat_slice]
  omega

/-- The upper byte of a packed word: red, and the upper three bits of green (R52). -/
theorem highByte_colourFields (r : BitVec 5) (g : BitVec 6) (b : BitVec 5) :
    highByte (r ++ g ++ b) = r ++ g.extractLsb' 3 3 := by
  have := r.isLt
  have := g.isLt
  have := b.isLt
  refine BitVec.eq_of_toNat_eq ?_
  rw [highByte, toNat_slice, toNat_colourFields, toNat_append_eq, toNat_slice]
  omega

/-- Settles O33: the two frame bytes of a cell are the two bytes of its word. -/
theorem frameBytesHoldTheColourFields : Obligations.FrameBytesHoldTheColourFields := by
  intro P r g b i hi hcell
  have hbytes := serFrame_getElem? P (i := i) hi
  rwa [hcell, lowByte_colourFields, highByte_colourFields] at hbytes

/-! ### Repeated commands (R51) -/

/-- Filling a canonical store twice is filling it once (R110). -/
theorem fillCells_fillCells {m : Memory} (hm : m.wf = true) (v : PackedColor) :
    (m.fillCells v).fillCells v = m.fillCells v := by
  have hfill := fillCells_wf hm v
  refine wf_ext (fillCells_wf hfill v) hfill fun i hi => ?_
  rw [readCell_fillCells _ _ hi, readCell_fillCells _ _ hi]

/-- Writing a cell of a canonical store twice is writing it once (R51). -/
theorem setCellAt_setCellAt {m : Memory} (hm : m.wf = true) (x y : Int) (v : PackedColor) :
    (m.setCellAt x y v).setCellAt x y v = m.setCellAt x y v := by
  have hset := setCellAt_wf hm x y v
  refine wf_ext (setCellAt_wf hset x y v) hset fun k _ => ?_
  rw [readCell_setCellAt]
  split
  · rename_i hk
    rw [readCell_setCellAt, if_pos hk]
  · rfl

/-- Loading one image twice is loading it once (R134). -/
theorem loadImage_loadImage (img : SourceImage) {m : Memory} (hm : m.wf = true) :
    loadImage img (loadImage img m) = loadImage img m := by
  have hload := loadImage_wf img hm
  refine wf_ext (loadImage_wf img hload) hload fun k hk => ?_
  obtain ⟨q, rfl⟩ := exists_request hk
  rw [readCell_loadImage, readCell_loadImage]

/-- A command repeated leaves the store of the first time. -/
theorem storeAfter_afterExec (i : Instr) {s : State} (hs : s.pb.wf = true) :
    storeAfter i (afterExec i s) = storeAfter i s := by
  cases i with
  | init => simp only [storeAfter, afterExec_pb, fillCells_fillCells hs]
  | set x y w => simp only [storeAfter, afterExec_pb, setCellAt_setCellAt hs]
  | setColor x y a r g b => simp only [storeAfter, afterExec_pb, setCellAt_setCellAt hs]
  | loadImg => simp only [storeAfter, afterExec_pb, afterExec_src, loadImage_loadImage s.src hs]
  | _ => rfl

/-- Settles O38: GET and COLORAT leave the store, so the second reads what the first read. -/
theorem writesAreIdempotent : Obligations.WritesAreIdempotent := by
  intro i s t u hs ht hu
  obtain rfl := exec_next ht
  obtain rfl := exec_next hu
  refine ⟨storeAfter_afterExec i hs, fun hread => ⟨okWord (dataOf i s), rfl, ?_⟩⟩
  have hdata : dataOf i (afterExec i s) = dataOf i s := by
    rcases hread with ⟨x, y, rfl | rfl⟩ <;> rfl
  rw [afterExec_responses, hdata]

/-! ### Runs -/

/-- A property that may count the steps still to do, and that every step keeps, holds at the end of a run. -/
theorem runSteps_induction {P : Nat → State → Prop}
    (hstep : ∀ n s t, P (n + 1) s → step s = .next t → P n t) {k : Nat} {s t : State}
    (hs : P k s) (h : runSteps k s = .next t) : P 0 t := by
  induction k generalizing s with
  | zero =>
    cases h
    exact hs
  | succ k ih =>
    obtain ⟨u, hu⟩ := everyStepAnswersANextState s
    rw [runSteps_succ k hu] at h
    exact ih (hstep k s u hs hu) h

/-- Every run answers a state, since every step does (R7). -/
theorem exists_runSteps (k : Nat) (s : State) : ∃ t, runSteps k s = .next t := by
  induction k generalizing s with
  | zero => exact ⟨s, rfl⟩
  | succ k ih =>
    obtain ⟨u, hu⟩ := everyStepAnswersANextState s
    rw [runSteps_succ k hu]
    exact ih u

/-! ### What has gone out stands (R50, R66, R202) -/

/-- What had gone out in `s` is the beginning of what has gone out in `t`. -/
def OutputsExtend (s t : State) : Prop :=
  s.responses <+: t.responses ∧ s.frames <+: t.frames ∧ s.requests <+: t.requests

theorem outputsExtend_refl (s : State) : OutputsExtend s s :=
  ⟨List.prefix_rfl, List.prefix_rfl, List.prefix_rfl⟩

theorem OutputsExtend.trans {s t u : State} (hst : OutputsExtend s t) (htu : OutputsExtend t u) :
    OutputsExtend s u := by
  obtain ⟨hresp, hframes, hreq⟩ := hst
  obtain ⟨hresp', hframes', hreq'⟩ := htu
  exact ⟨hresp.trans hresp', hframes.trans hframes', hreq.trans hreq'⟩

/-- A step only adds to the outputs; reset and a step with nothing presented leave them. -/
theorem step_outputsExtend {s t : State} (h : step s = .next t) : OutputsExtend s t := by
  rcases step_cases h with ⟨-, rfl⟩ | ⟨rest, -, rfl⟩ | ⟨-, img, rest, i, -, -, rfl⟩ |
    ⟨-, img, rest, -, -, -, rfl⟩
  · exact outputsExtend_refl t
  · exact outputsExtend_refl s
  · exact ⟨List.prefix_append _ _, List.prefix_append _ _, List.prefix_append _ _⟩
  · exact ⟨List.prefix_append _ _, List.prefix_rfl, List.prefix_rfl⟩

/-- Settles O48, by induction on the run. -/
theorem outputsAreNeverTakenBack : Obligations.OutputsAreNeverTakenBack := by
  intro k s t h
  exact runSteps_induction (P := fun _ u => OutputsExtend s u)
    (fun _ _ _ hu hstep => hu.trans (step_outputsExtend hstep)) (outputsExtend_refl s) h

/-! ### A read sees the last write (R53) -/

/-- A legal word writes the cells its command writes. -/
theorem writesCell_command_of_ok {c : CmdWord} {i : Instr} (hd : decode c = .ok i)
    (img : SourceImage) (k : Nat) : (HostMove.command c img).writesCell k = Instr.writesCell i k := by
  simp only [HostMove.writesCell, hd]

/-- A step whose move does not write a cell keeps it. -/
theorem readCell_step {s t : State} {k : Nat} (h : step s = .next t)
    (hk : ∀ m ∈ s.pending.head?, m.writesCell k = false) : t.pb.readCell k = s.pb.readCell k := by
  rcases step_cases h with ⟨-, rfl⟩ | ⟨rest, hp, rfl⟩ | ⟨c, img, rest, i, hp, hd, rfl⟩ |
    ⟨-, -, -, -, -, -, rfl⟩
  · rfl
  · have hreset : HostMove.reset.writesCell k = false := hk _ (by simp [hp])
    cases hreset
  · have hi := hk (.command c img) (by simp [hp])
    rw [writesCell_command_of_ok hd] at hi
    exact readCell_storeAfter hi (accept s rest img)
  · rfl

/-- Cell `k` holds `v`, and none of the next `n` moves writes it. -/
def HoldsFor (k : Nat) (v : PackedColor) (n : Nat) (s : State) : Prop :=
  s.pb.readCell k = v ∧ ∀ m ∈ s.pending.take n, m.writesCell k = false

/-- A step takes one of the moves that do not write the cell. -/
theorem step_holdsFor {k : Nat} {v : PackedColor} {n : Nat} {s t : State}
    (hs : HoldsFor k v (n + 1) s) (h : step s = .next t) : HoldsFor k v n t := by
  obtain ⟨hv, hmoves⟩ := hs
  refine ⟨(readCell_step h fun m hm => hmoves m ?_).trans hv, fun m hm => hmoves m ?_⟩
  · exact List.mem_of_mem_head? (by rwa [List.head?_take, if_neg n.succ_ne_zero])
  · rw [step_pending h, ← List.drop_one, List.take_drop, add_comm] at hm
    exact List.mem_of_mem_drop hm

/-- The write puts the value into the cell and leaves the moves to come. -/
theorem afterExec_set_holdsFor {x y : Int} (hxy : inBounds x y) (v : PackedColor) {s : State} {n : Nat}
    (hmoves : ∀ m ∈ s.pending.take n, m.writesCell (Idx x y) = false) :
    HoldsFor (Idx x y) v n (afterExec (.set x y v) s) := by
  refine ⟨?_, hmoves⟩
  rw [afterExec_pb, storeAfter, readCell_setCellAt, if_pos (addresser_of_inBounds hxy)]

/-- GET responds the cell and does nothing else (R111). -/
theorem exec_get_of_inBounds {x y : Int} (hxy : inBounds x y) (s : State) :
    exec (.get x y) s = .next { s with
      responses := s.responses ++ [okWord (cellData (s.pb.readCell (Idx x y)))] } := by
  have hcell : s.pb.cellAt x y = some (s.pb.readCell (Idx x y)) := by
    rw [cellAt_eq, if_pos (inRange_iff_inBounds.2 hxy)]
  rw [exec_eq]
  simp [afterExec, storeAfter, dataOf, framesOf, requestsOf, hcell]

/-- The response that carries a packed word, as a number (R66). -/
theorem okWord_cellData (v : PackedColor) : okWord (cellData v) = BitVec.ofNat 33 v.toNat := by
  have := v.isLt
  refine BitVec.eq_of_toNat_eq ?_
  rw [toNat_okWord, toNat_cellData, BitVec.toNat_ofNat]
  omega

/-- Settles O52: the cell holds the value through the run, and GET responds the cell. -/
theorem lastWriteIsReadBack : Obligations.LastWriteIsReadBack := by
  intro x y v s k hxy hmoves
  obtain ⟨t, hrun⟩ := exists_runSteps k (afterExec (.set x y v) s)
  have hcell : t.pb.readCell (Idx x y) = v :=
    (runSteps_induction (P := HoldsFor (Idx x y) v) (fun _ _ _ => step_holdsFor)
      (afterExec_set_holdsFor hxy v hmoves) hrun).1
  refine ⟨_, t, exec_eq _ s, hrun, ?_⟩
  rw [exec_get_of_inBounds hxy, hcell, okWord_cellData]

end Sys2Proof.Machine
end

section
/-! The command word (spec/30_encoding.md R60 to R65, R74 to R77): the rows of the table by fields, the encoder and the
decoder as inverses of each other, and which words are rejected by which name. -/

namespace Sys2Proof

open Sys2Proof.Rules

/-! ### The rows of the table by fields (R62, R75) -/

/-- The bits of X and Y that must be zero: all, unless the command has coordinates. -/
def Opcode.coordMask : Opcode → BitVec 12
  | .get | .set | .colorAt | .setColor => 0
  | _ => 0xFFF

/-- The bits of A that must be zero: all, unless the command is SETCOLOR. -/
def Opcode.alphaMask : Opcode → Byte
  | .setColor => 0
  | _ => 0xFF

/-- The bits of R that must be zero: all, unless the command has a colour. -/
def Opcode.redMask : Opcode → Byte
  | .pack | .setColor => 0
  | _ => 0xFF

/-- The bits of G and of B that must be zero: all, unless the command has a colour or a packed word. -/
def Opcode.wordMask : Opcode → Byte
  | .pack | .unpack | .set | .setColor => 0
  | _ => 0xFF

theorem mask_eq_formatFull (op : Opcode) : op.mask =
    formatFull 0xF 0xF op.coordMask op.coordMask op.alphaMask op.redMask op.wordMask op.wordMask := by
  cases op <;> rfl

theorem matchBits_eq_formatFull (op : Opcode) : op.matchBits = formatFull op.code 0 0 0 0 0 0 0 := by
  cases op <;> rfl

/-- A word matches a row exactly when it has the OP value and zeros wherever the command has no operand. -/
theorem and_mask_eq_matchBits_iff {op : Opcode} {c : CmdWord} : c &&& op.mask = op.matchBits ↔
    fieldOp c = op.code ∧ fieldZero c = 0 ∧
    fieldX c &&& op.coordMask = 0 ∧ fieldY c &&& op.coordMask = 0 ∧
    fieldA c &&& op.alphaMask = 0 ∧ fieldR c &&& op.redMask = 0 ∧
    fieldG c &&& op.wordMask = 0 ∧ fieldB c &&& op.wordMask = 0 := by
  rw [mask_eq_formatFull, matchBits_eq_formatFull, and_formatFull_eq_iff, and_ones4, and_ones4]

/-! ### Encode then decode -/

/-- An encoded word spells the row of its own command. -/
theorem encodesItsRow (i : Instr) : encode i &&& i.opcode.mask = i.opcode.matchBits := by
  cases i with
  | pack r g b => exact Laws.EncodesItsRow.pack r g b
  | unpack w => exact Laws.EncodesItsRow.unpack w
  | init => exact Laws.EncodesItsRow.init
  | get x y => exact Laws.EncodesItsRow.get x y
  | set x y w => exact Laws.EncodesItsRow.set x y w
  | bounds => exact Laws.EncodesItsRow.bounds
  | colorAt x y => exact Laws.EncodesItsRow.colorAt x y
  | setColor x y a r g b => exact Laws.EncodesItsRow.setColor x y a r g b
  | loadImg => exact Laws.EncodesItsRow.loadImg
  | ser => exact Laws.EncodesItsRow.ser
  | serz => exact Laws.EncodesItsRow.serz
  | serImg => exact Laws.EncodesItsRow.serImg

/-- The operands of an encoded word are those of the command, coordinates in range. -/
theorem operands_encode {i : Instr} (h : i.wellFormed = true) :
    i.opcode.operands (encode i) = i := by
  cases i with
  | get x y | set x y w | colorAt x y | setColor x y a r g b =>
    obtain ⟨hx, hy⟩ := Bool.and_eq_true_iff.1 h
    simp [Instr.opcode, Opcode.operands, encode, formatC_eq, formatCWord_eq, fieldWord_eq,
      word_of_bytes, toInt_coordField hx, toInt_coordField hy]
  | pack r g b | unpack w =>
    simp [Instr.opcode, Opcode.operands, encode, formatC_eq, formatCWord_eq, fieldWord_eq,
      word_of_bytes]
  | init | bounds | loadImg | ser | serz | serImg => rfl

/-- Encode then decode is the identity on well-formed commands. -/
theorem decode_encode {i : Instr} (h : i.wellFormed = true) : decode (encode i) = .ok i :=
  decode_eq_ok_iff.2 ⟨i.opcode, encodesItsRow i, (operands_encode h).symm⟩

/-! ### Decode then encode -/

/-- The packed word of a command word, back in its two fields. -/
theorem formatCWord_fieldWord (op : BitVec 4) (x y : BitVec 12) (c : CmdWord) :
    formatCWord op x y (fieldWord c) = formatFull op 0 x y 0 0 (fieldG c) (fieldB c) := by
  rw [formatCWord_eq, fieldWord_eq, BitVec.extractLsb'_append_eq_left,
    BitVec.extractLsb'_append_eq_right]

/-- Decode then encode: the operands of a word, encoded, are the word. -/
theorem encode_operands {op : Opcode} {c : CmdWord} (h : c &&& op.mask = op.matchBits) :
    encode (op.operands c) = c := by
  obtain ⟨hop, hz, hx, hy, ha, hr, hg, hb⟩ := and_mask_eq_matchBits_iff.1 h
  conv_rhs => rw [← formatFull_fields c, hop, hz]
  cases op with
  | pack =>
    simp only [Opcode.coordMask, Opcode.alphaMask, and_ones12, and_ones8] at hx hy ha
    rw [hx, hy, ha]
    rfl
  | unpack =>
    simp only [Opcode.coordMask, Opcode.alphaMask, Opcode.redMask, and_ones12, and_ones8] at hx hy ha hr
    rw [hx, hy, ha, hr]
    exact formatCWord_fieldWord _ _ _ c
  | get | colorAt =>
    simp only [Opcode.alphaMask, Opcode.redMask, Opcode.wordMask, and_ones8] at ha hr hg hb
    simp only [Opcode.operands, encode, coordField_toInt, formatC_eq, ha, hr, hg, hb]
    rfl
  | set =>
    simp only [Opcode.alphaMask, Opcode.redMask, and_ones8] at ha hr
    simp only [Opcode.operands, encode, coordField_toInt, formatCWord_fieldWord, ha, hr]
    rfl
  | setColor =>
    simp only [Opcode.operands, encode, coordField_toInt, formatC_eq]
    rfl
  | init | bounds | loadImg | ser | serz | serImg =>
    simp only [Opcode.coordMask, Opcode.alphaMask, Opcode.redMask, Opcode.wordMask, and_ones12,
      and_ones8] at hx hy ha hr hg hb
    rw [hx, hy, ha, hr, hg, hb]
    rfl

/-- Settles O22: an encoded command spells its own row, and a word that spells a row holds nothing beside its OP value
and its operands. -/
theorem legalWordsAndCommandsCorrespond : Obligations.LegalWordsAndCommandsCorrespond := by
  refine ⟨fun i => decode_encode, fun c i h => ⟨wellFormed_of_decode h, ?_⟩⟩
  obtain ⟨op, hc, rfl⟩ := decode_eq_ok_iff.1 h
  exact encode_operands hc

/-! ### The table and the decoder's rows -/

/-- The pairs of R75 are the decoder's rows, in order. -/
theorem table_eq_rows : table = [Opcode.pack, .unpack, .init, .get, .set, .bounds, .colorAt,
    .setColor, .loadImg, .ser, .serz, .serImg].map fun op => (op.matchBits, op.mask) := rfl

/-- A word that spells two commands has the OP values of both (R75). -/
theorem spelledBy_unique {op op' : Opcode} {c : CmdWord} (h : op.spelledBy c = true)
    (h' : op'.spelledBy c = true) : op = op' := by
  refine Option.some_injective _ ?_
  rw [← ofCode_code op, ← ofCode_code op', ← fieldOp_of_spelledBy h, ← fieldOp_of_spelledBy h']

/-- Settles O24: rows are told apart by their OP values. -/
theorem tableRowsAreDisjoint : Obligations.TableRowsAreDisjoint :=
  ⟨fun _ _ _ hne h => Bool.eq_false_iff.2 fun h' => hne (spelledBy_unique h h'),
    fun _ _ => spelledBy_iff, table_eq_rows⟩

/-- A word matches the table exactly when it matches the row of some command. -/
theorem spellsCommand_iff_exists_opcode {c : CmdWord} :
    spellsCommand c ↔ ∃ op : Opcode, c &&& op.mask = op.matchBits := by
  rw [spellsCommand, table_eq_rows]
  constructor
  · rintro ⟨row, hrow, hc⟩
    obtain ⟨op, -, rfl⟩ := List.mem_map.1 hrow
    exact ⟨op, hc⟩
  · rintro ⟨op, hc⟩
    exact ⟨_, List.mem_map.2 ⟨op, by cases op <;> decide, rfl⟩, hc⟩

/-- The decoder accepts the words of the table (R65, R75). -/
theorem spellsCommand_iff_decode_ok {c : CmdWord} : spellsCommand c ↔ ∃ i, decode c = .ok i := by
  rw [spellsCommand_iff_exists_opcode]
  constructor
  · rintro ⟨op, hc⟩
    exact ⟨_, decode_of_spelledBy op hc⟩
  · rintro ⟨i, hi⟩
    obtain ⟨op, hc, -⟩ := decode_eq_ok_iff.1 hi
    exact ⟨op, hc⟩

/-- A word outside the table is rejected. -/
theorem decode_error_of_not_spellsCommand {c : CmdWord} (h : ¬ spellsCommand c) :
    ∃ e, decode c = .error e := by
  cases hd : decode c with
  | ok i => exact absurd (spellsCommand_iff_decode_ok.2 ⟨i, hd⟩) h
  | error e => exact ⟨e, rfl⟩

/-- A word is rejected for its OP exactly when the OP names no command (R76). -/
theorem decode_eq_reservedOp_iff {c : CmdWord} :
    decode c = .error .reservedOp ↔ Opcode.ofCode (fieldOp c) = none := by
  unfold decode
  cases Opcode.ofCode (fieldOp c) with
  | none => simp
  | some op => cases hs : op.spelledBy c <;> simp [hs]

/-- A rejected word whose OP names a command is rejected for a must-be-zero bit (R77). -/
theorem decode_eq_mustBeZero_iff {c : CmdWord} : decode c = .error .mustBeZero ↔
    Opcode.ofCode (fieldOp c) ≠ none ∧ ¬ spellsCommand c := by
  rw [Ne, ← decode_eq_reservedOp_iff, spellsCommand_iff_decode_ok]
  rcases decode c with (_ | _) | i <;> simp

/-- The values of OP that are not reserved are those from 1 to 12 (R74, R76). -/
theorem ofCode_ne_none_iff (v : BitVec 4) :
    Opcode.ofCode v ≠ none ↔ 1 ≤ v.toNat ∧ v.toNat ≤ 12 := by
  revert v
  decide

/-- Settles O23: what is not accepted is rejected for its OP, or else for a must-be-zero bit. -/
theorem decoderAcceptsExactlyTheTable : Obligations.DecoderAcceptsExactlyTheTable := by
  intro c
  refine ⟨spellsCommand_iff_decode_ok, ?_, ?_⟩
  · rw [decode_eq_reservedOp_iff, ofCode_eq_none_iff, fieldOp]
  · rw [decode_eq_mustBeZero_iff, ofCode_ne_none_iff, fieldOp, and_assoc]

/-- Settles O25, by running the decoder on the seven words. -/
theorem specWordsDecodeToTheirCommands : Obligations.SpecWordsDecodeToTheirCommands := by
  unfold Obligations.SpecWordsDecodeToTheirCommands
  decide

end Sys2Proof
end

section
/-! Responses, the wire and the source image (spec/30_encoding.md R66, R70, R72, R73, R78): what a step answers to a
command word, which commands emit a frame, the offsets on the wire, and which commands look at the image. -/

namespace Sys2Proof.Machine

open Sys2Proof.Rules

/-! ### Responses (R66, R78) -/

/-- A word outside the table is answered with ILLEGAL, and nothing else happens. -/
theorem step_of_not_spellsCommand {s : State} {c : CmdWord} {img : SourceImage}
    {rest : List HostMove} (hp : s.pending = .command c img :: rest) (hc : ¬ spellsCommand c) :
    step s = .next (respondIllegal (accept s rest img)) := by
  obtain ⟨e, he⟩ := decode_error_of_not_spellsCommand hc
  exact step_illegal hp he

/-- Settles O16: the state is the one with the move taken and ILLEGAL responded. -/
theorem illegalWordOnlyRespondsIllegal : Obligations.IllegalWordOnlyRespondsIllegal :=
  fun _ _ _ _ => step_of_not_spellsCommand

/-- Settles O44: a legal word is answered by its command with ILL = 0, any other word by the ILLEGAL response. -/
theorem everyCommandRespondsOnce : Obligations.EveryCommandRespondsOnce := by
  intro s c img rest hp
  by_cases hc : spellsCommand c
  · obtain ⟨i, hi⟩ := spellsCommand_iff_decode_ok.1 hc
    have hill := okWord_ill (dataOf i (accept s rest img))
    exact ⟨_, _, step_legal hp hi, rfl, rfl,
      iff_of_false (Bool.eq_false_iff.1 hill) (not_not_intro hc),
      fun h => absurd h (Bool.eq_false_iff.1 hill)⟩
  · exact ⟨_, illegalWord, step_of_not_spellsCommand hp hc, rfl, rfl,
      iff_of_true (by decide) hc, fun _ => by decide⟩

/-! ### Which commands use the wire (R72) -/

/-- On the wire a frame is its bytes in order. -/
theorem map_snd_frameOnWire (f : Frame) : (frameOnWire f).map Prod.snd = f := by
  simp [frameOnWire, Function.comp_def]

/-- A serializer command emits one frame of 128 bytes. -/
theorem exists_framesOf_eq_singleton {i : Instr} (h : i = .ser ∨ i = .serz ∨ i = .serImg)
    (s : State) : ∃ F, framesOf i s = [F] ∧ F.length = 128 := by
  rcases h with rfl | rfl | rfl <;> exact ⟨_, rfl, serFrame_length _⟩

/-- Settles O45, from the frames a command emits. -/
theorem onlySerializersUseTheWire : Obligations.OnlySerializersUseTheWire := by
  intro i s t h
  obtain rfl := exec_next h
  split
  · rename_i hser
    obtain ⟨F, hF, hlen⟩ := exists_framesOf_eq_singleton hser s
    have hframes : (afterExec i s).frames = s.frames ++ [F] := by rw [afterExec_frames, hF]
    refine ⟨F, hframes, hlen, ?_⟩
    rw [wireBytes_append s _ F hframes, List.map_append, map_snd_frameOnWire]
  · rename_i hser
    push Not at hser
    obtain ⟨hser, hserz, himg⟩ := hser
    have hframes : (afterExec i s).frames = s.frames := by
      rw [afterExec_frames, framesOf_eq_nil hser hserz himg, List.append_nil]
    exact ⟨hframes, by rw [wireBytes, hframes, wireBytes]⟩

/-! ### Offsets on the wire (R73) -/

theorem length_frameOnWire (f : Frame) : (frameOnWire f).length = f.length := by
  simp [frameOnWire]

/-- Byte `n` of a frame travels with offset `n`. -/
theorem getElem?_frameOnWire {f : Frame} {n : Nat} (h : n < f.length) :
    (frameOnWire f)[n]? = some (BitVec.ofNat 7 n, f.getD n 0) := by
  rw [frameOnWire_eq, List.getElem?_map, List.getElem?_range h, Option.map_some]

/-- Whole frames take 128 bytes each on the wire. -/
theorem length_flatMap_frameOnWire {fs : List Frame} (h : ∀ f ∈ fs, f.length = 128) :
    (fs.flatMap frameOnWire).length = fs.length * 128 := by
  rw [List.length_flatMap, List.map_congr_left fun f hf => (length_frameOnWire f).trans (h f hf)]
  simp

/-- Whole frames follow one another: byte `n` is byte `n % 128` of frame `n / 128`. -/
theorem getElem?_flatMap_frameOnWire {fs : List Frame} (h : ∀ f ∈ fs, f.length = 128) {n : Nat}
    (hn : n < fs.length * 128) : (fs.flatMap frameOnWire)[n]? =
      some (BitVec.ofNat 7 (n % 128), (fs.getD (n / 128) []).getD (n % 128) 0) := by
  induction fs generalizing n with
  | nil => simp at hn
  | cons f fs ih =>
    obtain ⟨hf, hfs⟩ := List.forall_mem_cons.1 h
    rw [List.flatMap_cons]
    rcases Nat.lt_or_ge n 128 with hlt | hge
    · rw [List.getElem?_append_left (by rw [length_frameOnWire, hf]; exact hlt),
        getElem?_frameOnWire (hf.symm ▸ hlt), Nat.mod_eq_of_lt hlt, Nat.div_eq_of_lt hlt,
        List.getD_cons_zero]
    · obtain ⟨m, rfl⟩ := Nat.exists_eq_add_of_le' hge
      rw [List.length_cons] at hn
      rw [List.getElem?_append_right (by rw [length_frameOnWire, hf]; omega), length_frameOnWire,
        hf, Nat.add_sub_cancel, ih hfs (by omega), Nat.add_mod_right,
        Nat.add_div_right m (by decide), List.getD_cons_succ]

/-- Settles O46: the wire carries the frames one after another. -/
theorem wireBytesCarryTheirOffsets : Obligations.WireBytesCarryTheirOffsets :=
  fun _ h => ⟨length_flatMap_frameOnWire h, fun _ hn => getElem?_flatMap_frameOnWire h hn⟩

/-! ### The source image (R70) -/

/-- What a command that is not a bulk command does is the same with any image. -/
theorem afterExec_src_update {i : Instr} (hload : i ≠ .loadImg) (himg : i ≠ .serImg) (s : State)
    (img : SourceImage) :
    afterExec i { s with src := img } = { afterExec i s with src := img } := by
  cases i with
  | loadImg => exact absurd rfl hload
  | serImg => exact absurd rfl himg
  | _ => simp only [afterExec, storeAfter, dataOf, framesOf]

/-- Settles O50, from everything a command does. -/
theorem sourceImageIsReadOnlyByBulkCommands :
    Obligations.SourceImageIsReadOnlyByBulkCommands := by
  intro i s t img hload himg h
  obtain rfl := exec_next h
  rw [exec_eq, afterExec_src_update hload himg]

end Sys2Proof.Machine
end

section
/-! The text form, from text to operands (spec/30_encoding.md R82): the names, the ranges of operands, and the word that
a name with operands is encoded as. -/

namespace Sys2Proof.Assembly

open Sys2Proof.Rules

/-! ### Lines and pseudo-commands -/

/-- Settles O55: an assembled command is well-formed, so its encoding decodes to it. -/
theorem assembledLinesEncode : Obligations.AssembledLinesEncode := by
  intro line i h
  obtain ⟨_, _, _, -, -, -, hi⟩ := assembleLine_eq_some h
  exact ⟨wellFormed_of_assemble hi, decode_encode (wellFormed_of_assemble hi)⟩

/-- Settles O54, by the equations of `assemble`; SETRGB's alpha is the channel 255. -/
theorem pseudoCommandsAreTheirCommands : Obligations.PseudoCommandsAreTheirCommands := by
  refine ⟨fun ns => ?_, fun ns => ?_, fun ns => ?_, fun x y r g b => rfl⟩ <;> cases ns <;> rfl

/-! ### Names -/

/-- In a list without repeated spellings each name is found. -/
theorem findName_eq_some_of_mem {cs : List Char} {t : TextOp} {l : List (List Char × TextOp)}
    (hl : (l.map Prod.fst).Nodup) (h : (cs, t) ∈ l) : findName cs l = some t := by
  induction l with
  | nil => simp at h
  | cons e l ih =>
    obtain ⟨he, hl⟩ := List.nodup_cons.1 hl
    rw [findName]
    rcases List.mem_cons.1 h with rfl | h
    · exact if_pos rfl
    · have hne : e.1 ≠ cs := fun hcs => he (hcs ▸ List.mem_map_of_mem (f := Prod.fst) h)
      rw [if_neg hne, ih hl h]

/-- The sixteen spellings of R82 are the names, in order. -/
theorem names_eq_textNames : names = textNames.map fun row => (row.1.toList, row.2) := by
  decide

/-- A name is found exactly by its spelling. -/
theorem findName_names_iff {cs : List Char} {t : TextOp} :
    findName cs names = some t ↔ ∃ row ∈ textNames, row.1.toList = cs ∧ row.2 = t := by
  have hmem : findName cs names = some t ↔ (cs, t) ∈ names :=
    ⟨findName_mem, findName_eq_some_of_mem (by decide)⟩
  rw [hmem, names_eq_textNames, List.mem_map]
  simp only [Prod.mk.injEq]

/-! ### Operands -/

/-- The range check of an unsigned operand: it passes exactly for a number that a field of its width holds. -/
theorem unsignedField_eq_some_iff {w bound : Nat} (hb : bound = 2 ^ w) {n : Number} {v : BitVec w} :
    (if n.negative = false ∧ n.magnitude < bound then some (BitVec.ofNat w n.magnitude) else none) =
      some v ↔ isUnsigned n v := by
  subst hb
  rw [Option.ite_none_right_eq_some, Option.some.injEq, isUnsigned, ← BitVec.toNat_inj,
    BitVec.toNat_ofNat, and_assoc]
  refine and_congr_right fun _ => ⟨fun ⟨hlt, hv⟩ => ?_, fun hv => ?_⟩
  · rw [← hv, Nat.mod_eq_of_lt hlt]
  · rw [← hv, Nat.mod_eq_of_lt v.isLt]
    exact ⟨v.isLt, rfl⟩

/-- A channel is the 8-bit field of its number. -/
theorem channel_eq_some_iff {n : Number} {v : Byte} : n.channel = some v ↔ isUnsigned n v :=
  unsignedField_eq_some_iff (by decide)

/-- A packed word is the 16-bit field of its number. -/
theorem word_eq_some_iff {n : Number} {v : PackedColor} : n.word = some v ↔ isUnsigned n v :=
  unsignedField_eq_some_iff (by decide)

/-- A number that a field holds is below two to the width. -/
theorem isUnsigned_iff_lt {w : Nat} {n : Number} {v : BitVec w} :
    isUnsigned n v ↔ n.negative = false ∧ n.magnitude < 2 ^ w ∧ v.toNat = n.magnitude :=
  and_congr_right fun _ => ⟨fun h => ⟨h ▸ v.isLt, h⟩, And.right⟩

/-- A coordinate is the number as written, when that is in range. -/
theorem coord_eq_some_iff {n : Number} {v : Int} :
    n.coord = some v ↔ v = signedValue n ∧ coordOk v = true := by
  have hcoord : n.coord = if coordOk (signedValue n) then some (signedValue n) else none := rfl
  rw [hcoord, Option.ite_none_right_eq_some, Option.some.injEq]
  constructor
  · rintro ⟨hok, rfl⟩
    exact ⟨rfl, hok⟩
  · rintro ⟨rfl, hok⟩
    exact ⟨hok, rfl⟩

/-- A coordinate is the value of the 12-bit field of its number. -/
theorem coord_eq_some_iff_exists_field {n : Number} {v : Int} :
    n.coord = some v ↔ ∃ x : BitVec 12, isCoord n x ∧ v = x.toInt := by
  rw [coord_eq_some_iff]
  constructor
  · rintro ⟨hv, hok⟩
    have hfield := toInt_coordField hok
    exact ⟨coordField v, hfield.trans hv, hfield.symm⟩
  · rintro ⟨x, hx, rfl⟩
    exact ⟨hx, coordOk_toInt x⟩

/-- A number with a coordinate field is taken. -/
theorem coord_of_isCoord {n : Number} {x : BitVec 12} (h : isCoord n x) : n.coord = some x.toInt :=
  coord_eq_some_iff_exists_field.2 ⟨x, h, rfl⟩

/-- Settles O56, from what each kind of operand takes and from the spellings. -/
theorem operandRangesAndNamesAreThoseOfTheText :
    Obligations.OperandRangesAndNamesAreThoseOfTheText := by
  refine ⟨fun n v => channel_eq_some_iff.trans isUnsigned_iff_lt,
    fun n v => word_eq_some_iff.trans isUnsigned_iff_lt, fun n v => ?_,
    fun cs t => findName_names_iff⟩
  rw [coord_eq_some_iff, coordOk, decide_eq_true_eq]

/-! ### The words of R82 -/

/-- The word of PACK: the three channels at the bottom (R61, R82). -/
theorem encode_pack (r g b : Byte) :
    encode (.pack r g b) = (0x1 : BitVec 4) ++ (0 : BitVec 36) ++ r ++ g ++ b := by
  refine BitVec.eq_of_toNat_eq ?_
  rw [encode, formatC_eq, toNat_formatFull]
  simp only [toNat_append_eq]
  rfl

/-- The word of UNPACK: the packed word at the bottom (R61, R82). -/
theorem encode_unpack (w : PackedColor) :
    encode (.unpack w) = (0x2 : BitVec 4) ++ (0 : BitVec 44) ++ w := by
  refine BitVec.eq_of_toNat_eq ?_
  simp only [encode, formatCWord, toNat_append_eq]
  rfl

/-- A word with coordinates and nothing below them (R61, R82). -/
theorem formatC_coordinates (op : BitVec 4) (x y : BitVec 12) :
    formatC op x y 0 0 0 0 = op ++ (0 : BitVec 4) ++ x ++ y ++ (0 : BitVec 32) := by
  refine BitVec.eq_of_toNat_eq ?_
  rw [formatC_eq, toNat_formatFull]
  simp only [toNat_append_eq, BitVec.ofNat_eq_ofNat, BitVec.toNat_ofNat]
  omega

/-- The word of a command with coordinates alone. -/
theorem encode_get (x y : BitVec 12) : encode (.get x.toInt y.toInt) =
    (0x40 : BitVec 8) ++ x ++ y ++ (0 : BitVec 32) := by
  rw [encode, coordField_toInt, coordField_toInt, formatC_coordinates]
  rfl

theorem encode_colorAt (x y : BitVec 12) : encode (.colorAt x.toInt y.toInt) =
    (0x70 : BitVec 8) ++ x ++ y ++ (0 : BitVec 32) := by
  rw [encode, coordField_toInt, coordField_toInt, formatC_coordinates]
  rfl

theorem encode_set (x y : BitVec 12) (w : PackedColor) : encode (.set x.toInt y.toInt w) =
    (0x50 : BitVec 8) ++ x ++ y ++ (0 : BitVec 16) ++ w := by
  rw [encode, coordField_toInt, coordField_toInt]
  rfl

theorem encode_setColor (x y : BitVec 12) (a r g b : Byte) :
    encode (.setColor x.toInt y.toInt a r g b) = (0x80 : BitVec 8) ++ x ++ y ++ a ++ r ++ g ++ b := by
  rw [encode, coordField_toInt, coordField_toInt]
  rfl

/-! ### What a name with operands is encoded as, by shape of its operands -/

/-- A name that takes no operands. -/
theorem textEncodes_nullary {t : TextOp} {i : Instr} {word : CmdWord} (ht : t.arity = 0)
    (hi : t.assemble [] = some i) (hword : encode i = word) {ns : List Number} {c : CmdWord} :
    textEncodes t ns c ↔ ns = [] ∧ c = word := by
  subst hword
  constructor
  · rintro ⟨j, hj, rfl⟩
    obtain rfl := List.length_eq_zero_iff.1 ((length_of_assemble hj).trans ht)
    rw [hi, Option.some.injEq] at hj
    exact ⟨rfl, by rw [hj]⟩
  · rintro ⟨rfl, rfl⟩
    exact ⟨i, hi, rfl⟩

/-- PACK: three channels. -/
theorem textEncodes_pack {ns : List Number} {c : CmdWord} :
    textEncodes (.command .pack) ns c ↔ ∃ nr ng nb, ∃ r g b : Byte, ns = [nr, ng, nb] ∧
      isUnsigned nr r ∧ isUnsigned ng g ∧ isUnsigned nb b ∧
      c = (0x1 : BitVec 4) ++ (0 : BitVec 36) ++ r ++ g ++ b := by
  constructor
  · rintro ⟨i, hi, rfl⟩
    match ns, length_of_assemble hi with
    | [nr, ng, nb], _ =>
      simp only [TextOp.assemble, Option.bind_eq_some_iff, Option.map_eq_some_iff,
        channel_eq_some_iff] at hi
      obtain ⟨r, hr, g, hg, b, hb, rfl⟩ := hi
      exact ⟨nr, ng, nb, r, g, b, rfl, hr, hg, hb, encode_pack r g b⟩
  · rintro ⟨nr, ng, nb, r, g, b, rfl, hr, hg, hb, rfl⟩
    refine ⟨.pack r g b, ?_, encode_pack r g b⟩
    rw [← channel_eq_some_iff] at hr hg hb
    simp only [TextOp.assemble, hr, hg, hb, Option.bind_some, Option.map_some]

/-- UNPACK: a packed word. -/
theorem textEncodes_unpack {ns : List Number} {c : CmdWord} :
    textEncodes (.command .unpack) ns c ↔ ∃ nw, ∃ w : PackedColor, ns = [nw] ∧
      isUnsigned nw w ∧ c = (0x2 : BitVec 4) ++ (0 : BitVec 44) ++ w := by
  constructor
  · rintro ⟨i, hi, rfl⟩
    match ns, length_of_assemble hi with
    | [nw], _ =>
      simp only [TextOp.assemble, Option.map_eq_some_iff, word_eq_some_iff] at hi
      obtain ⟨w, hw, rfl⟩ := hi
      exact ⟨nw, w, rfl, hw, encode_unpack w⟩
  · rintro ⟨nw, w, rfl, hw, rfl⟩
    refine ⟨.unpack w, ?_, encode_unpack w⟩
    rw [← word_eq_some_iff] at hw
    simp only [TextOp.assemble, hw, Option.map_some]

/-- GET and COLORAT: two coordinates. -/
theorem textEncodes_coordinates {t : TextOp} {command : Int → Int → Instr}
    {word : BitVec 12 → BitVec 12 → CmdWord} (ht : t.arity = 2)
    (hassemble : ∀ nx ny : Number, t.assemble [nx, ny] =
      nx.coord.bind fun x => ny.coord.map fun y => command x y)
    (hword : ∀ x y : BitVec 12, encode (command x.toInt y.toInt) = word x y)
    {ns : List Number} {c : CmdWord} :
    textEncodes t ns c ↔ ∃ nx ny, ∃ x y : BitVec 12, ns = [nx, ny] ∧
      isCoord nx x ∧ isCoord ny y ∧ c = word x y := by
  constructor
  · rintro ⟨i, hi, rfl⟩
    obtain ⟨nx, ny, rfl⟩ := List.length_eq_two.1 ((length_of_assemble hi).trans ht)
    simp only [hassemble, Option.bind_eq_some_iff, Option.map_eq_some_iff,
      coord_eq_some_iff_exists_field] at hi
    obtain ⟨_, ⟨x, hx, rfl⟩, _, ⟨y, hy, rfl⟩, rfl⟩ := hi
    exact ⟨nx, ny, x, y, rfl, hx, hy, hword x y⟩
  · rintro ⟨nx, ny, x, y, rfl, hx, hy, rfl⟩
    refine ⟨command x.toInt y.toInt, ?_, hword x y⟩
    simp only [hassemble, coord_of_isCoord hx, coord_of_isCoord hy, Option.bind_some,
      Option.map_some]

/-- SET: two coordinates and a packed word. -/
theorem textEncodes_set {ns : List Number} {c : CmdWord} :
    textEncodes (.command .set) ns c ↔ ∃ nx ny nw, ∃ x y : BitVec 12, ∃ w : PackedColor,
      ns = [nx, ny, nw] ∧ isCoord nx x ∧ isCoord ny y ∧ isUnsigned nw w ∧
      c = (0x50 : BitVec 8) ++ x ++ y ++ (0 : BitVec 16) ++ w := by
  constructor
  · rintro ⟨i, hi, rfl⟩
    match ns, length_of_assemble hi with
    | [nx, ny, nw], _ =>
      simp only [TextOp.assemble, Option.bind_eq_some_iff, Option.map_eq_some_iff,
        coord_eq_some_iff_exists_field, word_eq_some_iff] at hi
      obtain ⟨_, ⟨x, hx, rfl⟩, _, ⟨y, hy, rfl⟩, w, hw, rfl⟩ := hi
      exact ⟨nx, ny, nw, x, y, w, rfl, hx, hy, hw, encode_set x y w⟩
  · rintro ⟨nx, ny, nw, x, y, w, rfl, hx, hy, hw, rfl⟩
    refine ⟨.set x.toInt y.toInt w, ?_, encode_set x y w⟩
    rw [← word_eq_some_iff] at hw
    simp only [TextOp.assemble, coord_of_isCoord hx, coord_of_isCoord hy, hw, Option.bind_some,
      Option.map_some]

/-- SETCOLOR: two coordinates and four channels. -/
theorem textEncodes_setColor {ns : List Number} {c : CmdWord} :
    textEncodes (.command .setColor) ns c ↔ ∃ nx ny na nr ng nb, ∃ x y : BitVec 12,
      ∃ a r g b : Byte, ns = [nx, ny, na, nr, ng, nb] ∧ isCoord nx x ∧ isCoord ny y ∧
      isUnsigned na a ∧ isUnsigned nr r ∧ isUnsigned ng g ∧ isUnsigned nb b ∧
      c = (0x80 : BitVec 8) ++ x ++ y ++ a ++ r ++ g ++ b := by
  constructor
  · rintro ⟨i, hi, rfl⟩
    match ns, length_of_assemble hi with
    | [nx, ny, na, nr, ng, nb], _ =>
      simp only [TextOp.assemble, Option.bind_eq_some_iff, Option.map_eq_some_iff,
        coord_eq_some_iff_exists_field, channel_eq_some_iff] at hi
      obtain ⟨_, ⟨x, hx, rfl⟩, _, ⟨y, hy, rfl⟩, a, ha, r, hr, g, hg, b, hb, rfl⟩ := hi
      exact ⟨nx, ny, na, nr, ng, nb, x, y, a, r, g, b, rfl, hx, hy, ha, hr, hg, hb,
        encode_setColor x y a r g b⟩
  · rintro ⟨nx, ny, na, nr, ng, nb, x, y, a, r, g, b, rfl, hx, hy, ha, hr, hg, hb, rfl⟩
    refine ⟨.setColor x.toInt y.toInt a r g b, ?_, encode_setColor x y a r g b⟩
    rw [← channel_eq_some_iff] at ha hr hg hb
    simp only [TextOp.assemble, coord_of_isCoord hx, coord_of_isCoord hy, ha, hr, hg, hb,
      Option.bind_some, Option.map_some]

/-- The alpha of SETRGB as a number of SETCOLOR. -/
theorem isUnsigned_opaque {a : Byte} : isUnsigned ⟨false, 255⟩ a ↔ a = 0xFF := by
  rw [isUnsigned, ← BitVec.toNat_inj]
  exact and_iff_right rfl

/-- SETRGB: SETCOLOR with the alpha 255. -/
theorem textEncodes_setRgb {ns : List Number} {c : CmdWord} :
    textEncodes .setRgb ns c ↔ ∃ nx ny nr ng nb, ∃ x y : BitVec 12, ∃ r g b : Byte,
      ns = [nx, ny, nr, ng, nb] ∧ isCoord nx x ∧ isCoord ny y ∧
      isUnsigned nr r ∧ isUnsigned ng g ∧ isUnsigned nb b ∧
      c = (0x80 : BitVec 8) ++ x ++ y ++ (0xFF : Byte) ++ r ++ g ++ b := by
  obtain ⟨-, -, -, hsetRgb⟩ := pseudoCommandsAreTheirCommands
  constructor
  · rintro ⟨i, hi, hc⟩
    match ns, length_of_assemble hi with
    | [nx, ny, nr, ng, nb], _ =>
      rw [hsetRgb] at hi
      obtain ⟨_, _, _, _, _, _, x, y, a, r, g, b, hns, hx, hy, ha, hr, hg, hb, rfl⟩ :=
        textEncodes_setColor.1 ⟨i, hi, hc⟩
      cases hns
      obtain rfl := isUnsigned_opaque.1 ha
      exact ⟨nx, ny, nr, ng, nb, x, y, r, g, b, rfl, hx, hy, hr, hg, hb, rfl⟩
  · rintro ⟨nx, ny, nr, ng, nb, x, y, r, g, b, rfl, hx, hy, hr, hg, hb, rfl⟩
    unfold textEncodes
    rw [hsetRgb]
    exact textEncodes_setColor.2 ⟨nx, ny, _, nr, ng, nb, x, y, 0xFF, r, g, b, rfl, hx, hy,
      isUnsigned_opaque.2 rfl, hr, hg, hb, rfl⟩

/-- Settles O57, a row at a time; the words of the nine names without operands are constants. -/
theorem textEncodesItsOperands : Obligations.TextEncodesItsOperands := by
  intro ns c
  exact ⟨textEncodes_pack, textEncodes_unpack, textEncodes_nullary (i := .init) rfl rfl rfl,
    textEncodes_coordinates rfl (fun _ _ => rfl) encode_get, textEncodes_set,
    textEncodes_nullary (i := .bounds) rfl rfl rfl,
    textEncodes_coordinates rfl (fun _ _ => rfl) encode_colorAt, textEncodes_setColor,
    textEncodes_nullary (i := .loadImg) rfl rfl rfl, textEncodes_nullary (i := .ser) rfl rfl rfl,
    textEncodes_nullary (i := .serz) rfl rfl rfl, textEncodes_nullary (i := .serImg) rfl rfl rfl,
    textEncodes_nullary (i := .ser) rfl rfl rfl, textEncodes_nullary (i := .serz) rfl rfl rfl,
    textEncodes_nullary (i := .serImg) rfl rfl rfl, textEncodes_setRgb⟩

end Sys2Proof.Assembly
end

section
/-! The text form, from characters to numbers and lines (spec/30_encoding.md R82): digits in base 10
and 16, the comment, the name and the operands between commas. -/

namespace Sys2Proof.Assembly

open Sys2Proof.Rules

/-! ### Digits -/

/-- Leading zeros add nothing. -/
theorem digitsFrom_zeros {base : Nat} (hb : 0 < base) (k : Nat) :
    digitsFrom base 0 (List.replicate k '0') = some 0 := by
  have hzero : digitValue base '0' = some 0 := by simp [digitValue, hb]
  induction k with
  | zero => rfl
  | succ k ih => simpa only [List.replicate_succ, digitsFrom, hzero, Nat.zero_mul] using ih

/-- The digits of a number are read as the number, however the digits are written. -/
theorem digitsFrom_map_toDigits {base : Nat} (hb : 1 < base) {write : Char → Char}
    (hwrite : ∀ d < base, digitValue base (write d.digitChar) = some d) (n : Nat) :
    digitsFrom base 0 ((Nat.toDigits base n).map write) = some n := by
  induction n using Nat.base_induction base hb with
  | single d hd => simp [Nat.toDigits_of_lt_base hd, digitsFrom, hwrite d hd]
  | digit m d hd hm ih =>
    rw [← Nat.toDigits_append_toDigits hb hm hd, List.map_append, digitsFrom_append, ih,
      Nat.toDigits_of_lt_base hd]
    simp [digitsFrom, hwrite d hd, Nat.mul_comm]

/-- A numeral: zeros, and then the digits of `n`. -/
theorem digits_numeral {base : Nat} (hb : 1 < base) {write : Char → Char}
    (hwrite : ∀ d < base, digitValue base (write d.digitChar) = some d) (n k : Nat) :
    digits base (List.replicate k '0' ++ (Nat.toDigits base n).map write) = some n := by
  rw [digits_eq (by simp), digitsFrom_append, digitsFrom_zeros (by omega)]
  exact digitsFrom_map_toDigits hb hwrite n

theorem digitValue_ten : ∀ d < 10, digitValue 10 d.digitChar = some d := by decide

theorem digitValue_sixteen : ∀ d < 16, digitValue 16 d.digitChar = some d := by decide

theorem digitValue_sixteen_toUpper : ∀ d < 16, digitValue 16 d.digitChar.toUpper = some d := by
  decide

/-- A decimal numeral. -/
theorem digits_decimal (n k : Nat) :
    digits 10 (List.replicate k '0' ++ Nat.toDigits 10 n) = some n := by
  simpa only [List.map_id] using digits_numeral (by decide) (write := id) digitValue_ten n k

/-- A hexadecimal numeral in lower-case letters. -/
theorem digits_hexadecimal (n k : Nat) :
    digits 16 (List.replicate k '0' ++ Nat.toDigits 16 n) = some n := by
  simpa only [List.map_id] using digits_numeral (by decide) (write := id) digitValue_sixteen n k

/-- A decimal numeral holds digits only. -/
theorem isDigit_of_mem_decimal {n k : Nat} {c : Char}
    (h : c ∈ List.replicate k '0' ++ Nat.toDigits 10 n) : c.isDigit = true := by
  rcases List.mem_append.1 h with h | h
  · rw [List.eq_of_mem_replicate h]
    decide
  · exact Nat.isDigit_of_mem_toDigits (by decide) (by decide) h

/-- A run of decimal digits begins neither with `-` nor with `0x`. -/
theorem parseNumber_of_isDigit {cs : List Char} (h : ∀ c ∈ cs, c.isDigit = true) :
    parseNumber cs = (digits 10 cs).map fun n => ⟨false, n⟩ := by
  refine parseNumber_decimal ?_ ?_
  · rintro ds rfl
    exact absurd (h '-' (by simp)) (by decide)
  · rintro ds rfl
    exact absurd (h 'x' (by simp)) (by decide)

theorem parseNumber_minus (cs : List Char) :
    parseNumber ('-' :: cs) = (digits 10 cs).map fun n => ⟨true, n⟩ := rfl

theorem parseNumber_hexadecimal (cs : List Char) :
    parseNumber ('0' :: 'x' :: cs) = (digits 16 cs).map fun n => ⟨false, n⟩ := rfl

/-- Settles O58, from the numerals in the two bases. -/
theorem numbersAreDecimalOrHexadecimal : Obligations.NumbersAreDecimalOrHexadecimal := by
  intro n k
  refine ⟨?_, ?_, ?_, ?_⟩
  · rw [parseNumber_of_isDigit fun _ => isDigit_of_mem_decimal, digits_decimal, Option.map_some]
  · rw [parseNumber_minus, digits_decimal, Option.map_some]
  · rw [parseNumber_hexadecimal, digits_hexadecimal, Option.map_some]
  · rw [parseNumber_hexadecimal, digits_numeral (by decide) digitValue_sixteen_toUpper,
      Option.map_some]

/-! ### The comment -/

/-- The text before the first `;`, with a comment and without one. -/
theorem takeWhile_append_comment (line comment : List Char) :
    (line ++ ';' :: comment).takeWhile (fun c => c != ';') = line.takeWhile fun c => c != ';' := by
  induction line with
  | nil => rfl
  | cons c line ih => simp only [List.cons_append, List.takeWhile_cons, ih]

/-- What follows a `;` is not read. -/
theorem assembleLine_append_comment (line comment : List Char) :
    assembleLine (line ++ ';' :: comment) = assembleLine line := by
  simp only [assembleLine, takeWhile_append_comment]

/-! ### Operands between commas -/

/-- A text whose last character is no blank. -/
def EndsInText (cs : List Char) : Prop := ∃ ds d, cs = ds ++ [d] ∧ isBlank d = false

theorem EndsInText.append_left {cs : List Char} (h : EndsInText cs) (xs : List Char) :
    EndsInText (xs ++ cs) := by
  obtain ⟨ds, d, rfl, hd⟩ := h
  exact ⟨xs ++ ds, d, (List.append_assoc xs ds [d]).symm, hd⟩

/-- Nothing is taken off a text without a blank at either end. -/
theorem EndsInText.trim_cons {c : Char} {cs : List Char} (h : EndsInText (c :: cs))
    (hc : isBlank c = false) : trim (c :: cs) = c :: cs := by
  obtain ⟨ds, d, hds, hd⟩ := h
  exact trim_of_ends hc hd cs ds hds

/-- Blanks in front are taken off. -/
theorem trim_replicate_append (k : Nat) (cs : List Char) :
    trim (List.replicate k ' ' ++ cs) = trim cs := by
  induction k with
  | zero => rfl
  | succ k ih => rw [List.replicate_succ, List.cons_append, trim_cons_blank (by decide), ih]

/-- A piece by the model's own test for blanks. -/
theorem isPiece_iff {p : List Char} : isPiece p ↔
    p ≠ [] ∧ ∀ c ∈ p, c ≠ ',' ∧ c ≠ ';' ∧ isBlank c = false := by
  simp only [isPiece, isBlank, Bool.or_eq_false_iff, beq_eq_false_iff_ne]

/-- The first piece, and what is left after its comma. -/
theorem commaSeparated_cons (k : Nat) (p q : List Char) (qs : List (List Char)) :
    commaSeparated k p (q :: qs) = p ++ ',' :: commaSeparated k (List.replicate k ' ' ++ q) qs := by
  simp [commaSeparated]

theorem endsInText_of_isPiece {p : List Char} (h : isPiece p) : EndsInText p := by
  obtain ⟨hne, hp⟩ := isPiece_iff.1 h
  obtain ⟨-, -, hblank⟩ := hp _ (List.getLast_mem hne)
  exact ⟨p.dropLast, p.getLast hne, (List.dropLast_concat_getLast hne).symm, hblank⟩

/-- A piece has no blank to take off. -/
theorem trim_of_isPiece {p : List Char} (h : isPiece p) : trim p = p :=
  trim_of_no_blank fun c hc => ((isPiece_iff.1 h).2 c hc).2.2

theorem ne_comma_of_isPiece {p : List Char} (h : isPiece p) : ∀ c ∈ p, c ≠ ',' :=
  fun c hc => ((isPiece_iff.1 h).2 c hc).1

theorem ne_semicolon_of_isPiece {p : List Char} (h : isPiece p) : ∀ c ∈ p, c ≠ ';' :=
  fun c hc => ((isPiece_iff.1 h).2 c hc).2.1

/-- Operands end with the last piece. -/
theorem endsInText_commaSeparated (k : Nat) {p : List Char} (hp : EndsInText p)
    {ps : List (List Char)} (hps : ∀ q ∈ ps, isPiece q) : EndsInText (commaSeparated k p ps) := by
  induction ps generalizing p with
  | nil => simpa [commaSeparated] using hp
  | cons q qs ih =>
    obtain ⟨hq, hqs⟩ := List.forall_mem_cons.1 hps
    rw [commaSeparated_cons]
    exact ((ih ((endsInText_of_isPiece hq).append_left _) hqs).append_left [',']).append_left p

/-- Operands hold no `;`. -/
theorem no_semicolon_commaSeparated (k : Nat) {p : List Char} (hp : isPiece p)
    {ps : List (List Char)} (hps : ∀ q ∈ ps, isPiece q) : ∀ c ∈ commaSeparated k p ps, c ≠ ';' := by
  simp only [commaSeparated, List.mem_append, List.mem_flatMap, List.mem_cons]
  rintro c (hc | ⟨q, hq, rfl | hc | hc⟩)
  · exact ne_semicolon_of_isPiece hp c hc
  · decide
  · rw [List.eq_of_mem_replicate hc]
    decide
  · exact ne_semicolon_of_isPiece (hps q hq) c hc

/-- Cutting at the commas gives the pieces back, with the blanks after each comma. -/
theorem splitCommas_commaSeparated (k : Nat) {p : List Char} (hp : ∀ c ∈ p, c ≠ ',')
    {ps : List (List Char)} (hps : ∀ q ∈ ps, isPiece q) :
    splitCommas [] (commaSeparated k p ps) = p :: ps.map (List.replicate k ' ' ++ ·) := by
  induction ps generalizing p with
  | nil => simpa [commaSeparated] using splitCommas_last hp []
  | cons q qs ih =>
    obtain ⟨hq, hqs⟩ := List.forall_mem_cons.1 hps
    have hblanks : ∀ c ∈ List.replicate k ' ' ++ q, c ≠ ',' := by
      intro c hc
      rcases List.mem_append.1 hc with hc | hc
      · rw [List.eq_of_mem_replicate hc]
        decide
      · exact ne_comma_of_isPiece hq c hc
    rw [commaSeparated_cons, splitCommas_comma hp, ih hblanks hqs]
    rfl

/-- Operands are read a piece at a time. -/
theorem parseOperands_of_trim {cs : List Char} {c : Char} {rest : List Char}
    (h : trim cs = c :: rest) : parseOperands cs =
      ((splitCommas [] (c :: rest)).map trim).mapM parseNumber := by
  simp only [parseOperands, h, List.mapM_map, Function.comp_def]

/-- The operands after a name and a blank are the numbers of the pieces. -/
theorem parseOperands_commaSeparated (k : Nat) {p : List Char} {ps : List (List Char)}
    (h : ∀ q ∈ p :: ps, isPiece q) :
    parseOperands (' ' :: commaSeparated k p ps) = (p :: ps).mapM parseNumber := by
  obtain ⟨hp, hps⟩ := List.forall_mem_cons.1 h
  have hpieces : (splitCommas [] (commaSeparated k p ps)).map trim = p :: ps := by
    rw [splitCommas_commaSeparated k (ne_comma_of_isPiece hp) hps, List.map_cons,
      trim_of_isPiece hp, List.map_map]
    refine congrArg (p :: ·) ((List.map_congr_left fun q hq => ?_).trans (List.map_id ps))
    rw [Function.comp_apply, trim_replicate_append, trim_of_isPiece (hps q hq), id]
  obtain ⟨hne, hchars⟩ := isPiece_iff.1 hp
  cases p with
  | nil => exact absurd rfl hne
  | cons c p =>
    have hc : isBlank c = false := (hchars c (by simp)).2.2
    have hcons : commaSeparated k (c :: p) ps = c :: commaSeparated k p ps := rfl
    have hend := endsInText_commaSeparated k (endsInText_of_isPiece hp) hps
    rw [hcons] at hend hpieces ⊢
    rw [parseOperands_of_trim ((trim_cons_blank (by decide) _).trans (hend.trim_cons hc)), hpieces]

/-! ### Lines -/

/-- A name is one piece of a line. -/
theorem isPiece_textName : ∀ row ∈ textNames, isPiece row.1.toList := by
  simp [textNames, isPiece]

/-- A line is read as its name and what stands after the name. -/
theorem assembleLine_name_append {row : String × TextOp} (hrow : row ∈ textNames) {tail : List Char}
    (hcomment : ∀ c ∈ tail, c ≠ ';') (hend : EndsInText (row.1.toList ++ tail))
    (htail : tail.takeWhile (fun d => !isBlank d) = []) {ns : List Number}
    (hops : parseOperands tail = some ns) {i : Instr} :
    assembleLine (row.1.toList ++ tail) = .ok (some i) ↔ row.2.assemble ns = some i := by
  have hpiece := isPiece_textName row hrow
  have hfind : findName row.1.toList names = some row.2 :=
    findName_names_iff.2 ⟨row, hrow, rfl, rfl⟩
  generalize row.1.toList = name at hpiece hfind hend
  obtain ⟨hne, hchars⟩ := isPiece_iff.1 hpiece
  have hword : ∀ d ∈ name, (!isBlank d) = true := fun d hd => by simp [(hchars d hd).2.2]
  have hdrop : tail.dropWhile (fun d => !isBlank d) = tail := by
    simpa only [htail, List.nil_append] using
      List.takeWhile_append_dropWhile (p := fun d => !isBlank d) (l := tail)
  have hread : (name ++ tail).takeWhile (fun c => c != ';') = name ++ tail := by
    refine List.takeWhile_eq_self_iff.2 fun c hc => bne_iff_ne.2 ?_
    exact (List.mem_append.1 hc).elim (ne_semicolon_of_isPiece hpiece c) (hcomment c)
  cases name with
  | nil => exact absurd rfl hne
  | cons c name =>
    refine assembleLine_eq_some_iff (c := c) (cs := name ++ tail) ?_ ?_ ?_
    · rw [hread]
      exact hend.trim_cons (hchars c (by simp)).2.2
    · rwa [← List.cons_append, List.takeWhile_append_of_pos hword, htail, List.append_nil]
    · rwa [← List.cons_append, List.dropWhile_append_of_pos hword, hdrop]

/-- Settles O59: the comment is not read, and a line is read as its name and its operands. -/
theorem linesAreANameOperandsAndAComment : Obligations.LinesAreANameOperandsAndAComment := by
  refine ⟨assembleLine_append_comment, fun row hrow i => ⟨?_, fun k p ps ns hpieces hns => ?_⟩⟩
  · have hline := assembleLine_name_append hrow (tail := []) (i := i) (by simp)
      (by simpa using endsInText_of_isPiece (isPiece_textName row hrow)) rfl (ns := []) rfl
    rwa [List.append_nil] at hline
  · obtain ⟨hp, hps⟩ := List.forall_mem_cons.1 hpieces
    refine assembleLine_name_append hrow
      (List.forall_mem_cons.2 ⟨by decide, no_semicolon_commaSeparated k hp hps⟩) ?_ rfl
      ((parseOperands_commaSeparated k hpieces).trans hns)
    have hend := endsInText_commaSeparated k (endsInText_of_isPiece hp) hps
    exact (hend.append_left [' ']).append_left _

end Sys2Proof.Assembly
end

section
/-! The codec (spec/40_codec.md): what the document's masks and shifts are as numbers, the laws of `pack` and `unpack`,
the commands PACK and UNPACK, and the alpha that nothing keeps. -/

namespace Sys2Proof.Machine

open Sys2Proof.Rules

/-! ### Masks as numbers -/

/-- A mask without its lowest `n` bits rounds down to a multiple of `2 ^ n`. -/
theorem toNat_and_highMask {w : Nat} (x : BitVec w) (n : Nat) :
    (x &&& BitVec.allOnes w <<< n).toNat = x.toNat / 2 ^ n * 2 ^ n := by
  rw [← BitVec.shiftLeft_ushiftRight, BitVec.toNat_shiftLeft, BitVec.toNat_ushiftRight,
    Nat.shiftLeft_eq, Nat.shiftRight_eq_div_pow]
  exact Nat.mod_eq_of_lt ((Nat.div_mul_le_self _ _).trans_lt x.isLt)

/-- A mask of the lowest `n` bits is the remainder by `2 ^ n`. -/
theorem toNat_and_lowMask {w : Nat} (x : BitVec w) {n : Nat} (hn : n ≤ w) :
    (x &&& BitVec.ofNat w (2 ^ n - 1)).toNat = x.toNat % 2 ^ n := by
  have hmask : 2 ^ n - 1 < 2 ^ w :=
    (Nat.sub_lt (Nat.two_pow_pos n) Nat.one_pos).trans_le (Nat.pow_le_pow_right two_pos hn)
  rw [BitVec.toNat_and, BitVec.toNat_ofNat, Nat.mod_eq_of_lt hmask,
    Nat.and_two_pow_sub_one_eq_mod]

/-- The low `n` bits are zero exactly when masking them off changes nothing. -/
theorem and_highMask_eq_self_iff {w : Nat} (x : BitVec w) {n : Nat} (hn : n ≤ w) :
    x &&& BitVec.allOnes w <<< n = x ↔ x &&& BitVec.ofNat w (2 ^ n - 1) = 0 := by
  rw [← BitVec.toNat_inj, ← BitVec.toNat_inj, toNat_and_highMask, toNat_and_lowMask x hn]
  have hdiv := Nat.div_add_mod' x.toNat (2 ^ n)
  simp only [BitVec.ofNat_eq_ofNat, BitVec.toNat_ofNat, Nat.zero_mod]
  omega

/-- The red field of a word where it stands, under the mask of R93. -/
theorem toNat_and_redMask (w : PackedColor) : (w &&& 0xF800).toNat = w.toNat / 2048 * 2048 :=
  toNat_and_highMask w 11

/-- The green field where it stands: the mask is a high mask and a low mask together. -/
theorem toNat_and_greenMask (w : PackedColor) :
    (w &&& 0x07E0).toNat = w.toNat / 32 % 64 * 32 := by
  have hmask : (0x07E0 : PackedColor) = 0xFFE0 &&& 0x07FF := by decide
  have hhigh : (w &&& 0xFFE0).toNat = w.toNat / 32 * 32 := toNat_and_highMask w 5
  have hlow : (w &&& 0xFFE0 &&& 0x07FF).toNat = (w &&& 0xFFE0).toNat % 2048 :=
    toNat_and_lowMask (w &&& 0xFFE0) (n := 11) (by decide)
  rw [hmask, ← BitVec.and_assoc, hlow, hhigh]
  omega

/-- The blue field, which stands at the bottom. -/
theorem toNat_and_blueMask (w : PackedColor) : (w &&& 0x001F).toNat = w.toNat % 32 :=
  toNat_and_lowMask w (n := 5) (by decide)

/-! ### One function, three forms (R90, R93) -/

/-- The upper bits of a channel, widened, are the channel widened and shifted down. -/
theorem setWidth_upperBits (x : Byte) {n len : Nat} (h : n + len = 8) :
    (x.extractLsb' n len).setWidth 16 = x.setWidth 16 >>> n := by
  refine BitVec.eq_of_getLsbD_eq fun i hi => ?_
  simp only [BitVec.getLsbD_setWidth, BitVec.getLsbD_extractLsb', BitVec.getLsbD_ushiftRight]
  rcases Nat.lt_or_ge i len with hlt | hge
  · simp [hi, hlt, show n + i < 16 by omega]
  · simp [show ¬ i < len by omega, BitVec.getLsbD_of_ge x (n + i) (by omega)]

/-- The document's formula for `pack` is the concatenation of the upper bits of the channels (R90). -/
theorem pack_eq_shifts (r g b : Byte) :
    pack r g b = ((r.setWidth 16 >>> 3) <<< 11) ||| ((g.setWidth 16 >>> 2) <<< 5) |||
      (b.setWidth 16 >>> 3) := by
  rw [← setWidth_upperBits r (len := 5) (by decide), ← setWidth_upperBits g (len := 6) (by decide),
    ← setWidth_upperBits b (len := 5) (by decide)]
  exact (BitVec.setWidth_eq _).symm.trans BitVec.setWidth_append_append_eq_shiftLeft_setWidth_or

/-- Settles O26: the slices of a packed word are read off its number. -/
theorem packFormsAgree : Obligations.PackFormsAgree := by
  intro r g b
  have := r.isLt
  have := g.isLt
  have := b.isLt
  refine ⟨pack_eq_shifts r g b, BitVec.eq_of_toNat_eq ?_, BitVec.eq_of_toNat_eq ?_,
    BitVec.eq_of_toNat_eq ?_, toNat_pack r g b⟩
  all_goals
    rw [toNat_slice, toNat_slice, toNat_pack]
    omega

/-- Settles O27, from the masks and `unpack` as numbers. -/
theorem unpackFormsAgree : Obligations.UnpackFormsAgree := by
  intro w
  have hw := w.isLt
  refine ⟨BitVec.eq_of_toNat_eq ?_, BitVec.eq_of_toNat_eq ?_, BitVec.eq_of_toNat_eq ?_,
    toNat_unpack_red w, toNat_unpack_green w, toNat_unpack_blue w⟩
  · rw [toNat_unpack_red, BitVec.toNat_setWidth, BitVec.toNat_ushiftRight, toNat_and_redMask,
      Nat.shiftRight_eq_div_pow]
    omega
  · rw [toNat_unpack_green, BitVec.toNat_setWidth, BitVec.toNat_ushiftRight, toNat_and_greenMask,
      Nat.shiftRight_eq_div_pow]
    omega
  · rw [toNat_unpack_blue, BitVec.toNat_setWidth, BitVec.toNat_shiftLeft, toNat_and_blueMask,
      Nat.shiftLeft_eq]
    omega

/-! ### `unpack` then `pack` loses nothing (R95) -/

theorem pack_unpack (w : PackedColor) :
    pack (unpack w).red (unpack w).green (unpack w).blue = w := by
  have hw := w.isLt
  refine BitVec.eq_of_toNat_eq ?_
  rw [toNat_pack, toNat_unpack_red, toNat_unpack_green, toNat_unpack_blue]
  omega

/-- A colour is dequantized from one word only, its own pack. -/
theorem pack_of_unpack_eq {w : PackedColor} {r g b : Byte} (h : unpack w = ⟨r, g, b⟩) :
    pack r g b = w := by
  simpa only [h] using pack_unpack w

/-! ### What `pack` keeps of a colour (R91) -/

/-- Two colours pack alike exactly when the kept bits of each channel agree. -/
theorem pack_eq_pack_iff {r g b r' g' b' : Byte} : pack r g b = pack r' g' b' ↔
    r.toNat / 8 = r'.toNat / 8 ∧ g.toNat / 4 = g'.toNat / 4 ∧ b.toNat / 8 = b'.toNat / 8 := by
  have := g.isLt
  have := b.isLt
  have := g'.isLt
  have := b'.isLt
  rw [← BitVec.toNat_inj, toNat_pack, toNat_pack]
  omega

theorem pack_le_pack {r g b r' g' b' : Byte} (hr : r ≤ r') (hg : g ≤ g') (hb : b ≤ b') :
    pack r g b ≤ pack r' g' b' := by
  rw [BitVec.le_def] at hr hg hb ⊢
  rw [toNat_pack, toNat_pack]
  omega

/-- Settles O28: `pack` is onto because every word is the pack of its own colour. -/
theorem packTruncates : Obligations.PackTruncates :=
  ⟨fun _ _ _ _ _ _ => pack_eq_pack_iff, fun _ _ _ _ _ _ => pack_le_pack,
    fun w => ⟨_, _, _, pack_unpack w⟩, by decide, by decide, by decide⟩

/-! ### `pack` then `unpack` clears the low bits (R95) -/

theorem toNat_unpack_pack_red (r g b : Byte) :
    (unpack (pack r g b)).red.toNat = r.toNat / 8 * 8 := by
  have := g.isLt
  have := b.isLt
  rw [toNat_unpack_red, toNat_pack]
  omega

theorem toNat_unpack_pack_green (r g b : Byte) :
    (unpack (pack r g b)).green.toNat = g.toNat / 4 * 4 := by
  have := g.isLt
  have := b.isLt
  rw [toNat_unpack_green, toNat_pack]
  omega

theorem toNat_unpack_pack_blue (r g b : Byte) :
    (unpack (pack r g b)).blue.toNat = b.toNat / 8 * 8 := by
  have := b.isLt
  rw [toNat_unpack_blue, toNat_pack]
  omega

/-- Colours are equal when their channels are the same numbers. -/
theorem rgb_eq_of_toNat_eq {c d : Rgb} (hr : c.red.toNat = d.red.toNat)
    (hg : c.green.toNat = d.green.toNat) (hb : c.blue.toNat = d.blue.toNat) : c = d := by
  cases c
  cases d
  rw [Rgb.mk.injEq]
  exact ⟨BitVec.eq_of_toNat_eq hr, BitVec.eq_of_toNat_eq hg, BitVec.eq_of_toNat_eq hb⟩

theorem unpack_pack (r g b : Byte) :
    unpack (pack r g b) = ⟨r &&& 0xF8, g &&& 0xFC, b &&& 0xF8⟩ :=
  rgb_eq_of_toNat_eq ((toNat_unpack_pack_red r g b).trans (toNat_and_highMask r 3).symm)
    ((toNat_unpack_pack_green r g b).trans (toNat_and_highMask g 2).symm)
    ((toNat_unpack_pack_blue r g b).trans (toNat_and_highMask b 3).symm)

/-- A colour survives exactly when the bits that `pack` drops are zero. -/
theorem unpack_pack_eq_self_iff (r g b : Byte) :
    unpack (pack r g b) = ⟨r, g, b⟩ ↔ r &&& 7 = 0 ∧ g &&& 3 = 0 ∧ b &&& 7 = 0 := by
  rw [unpack_pack, Rgb.mk.injEq]
  exact and_congr (and_highMask_eq_self_iff r (n := 3) (by decide))
    (and_congr (and_highMask_eq_self_iff g (n := 2) (by decide))
      (and_highMask_eq_self_iff b (n := 3) (by decide)))

/-- A colour survives exactly when it is dequantized from a word, which is then its pack. -/
theorem unpack_pack_eq_self_iff_existsUnique (r g b : Byte) :
    unpack (pack r g b) = ⟨r, g, b⟩ ↔ ∃! w : PackedColor, unpack w = ⟨r, g, b⟩ := by
  constructor
  · exact fun h => ⟨pack r g b, h, fun _ hw => (pack_of_unpack_eq hw).symm⟩
  · rintro ⟨w, hw, -⟩
    rwa [pack_of_unpack_eq hw]

/-- Settles O29: both round trips, and what the lossy one costs a channel by its number. -/
theorem codecIsDeliberatelyAsymmetric : Obligations.CodecIsDeliberatelyAsymmetric := by
  refine ⟨pack_unpack, unpack_pack, unpack_pack_eq_self_iff, unpack_pack_eq_self_iff_existsUnique,
    fun r g b => ?_, fun r g b => by rw [pack_unpack], by decide⟩
  rw [toNat_unpack_pack_red, toNat_unpack_pack_green, toNat_unpack_pack_blue]
  omega

/-! ### The alpha (R97, R133, R134) -/

/-- Images that agree below the alpha load alike. -/
theorem loadImage_congr {img img' : SourceImage}
    (h : ∀ q, (img.pixel q).extractLsb' 0 24 = (img'.pixel q).extractLsb' 0 24) (m : Memory) :
    loadImage img m = loadImage img' m := by
  have hpack : ∀ q, packPixel (img.pixel q) = packPixel (img'.pixel q) :=
    fun q => packPixel_congr (h q)
  simp only [loadImage, hpack]

/-- A command over an image that differs in the alpha only does the same and keeps that image. -/
theorem afterExec_src_congr (i : Instr) {s : State} {img : SourceImage}
    (h : ∀ q, (s.src.pixel q).extractLsb' 0 24 = (img.pixel q).extractLsb' 0 24) :
    afterExec i { s with src := img } = { afterExec i s with src := img } := by
  cases i with
  | loadImg | serImg => simp only [afterExec, storeAfter, dataOf, framesOf, loadImage_congr h]
  | _ => exact afterExec_src_update (by simp) (by simp) s img

/-- Settles O41: SETCOLOR's effect does not name its alpha, and the bulk commands see a pixel through `packPixel`. -/
theorem alphaIsDiscarded : Obligations.AlphaIsDiscarded := by
  refine ⟨fun x y a a' r g b s => ?_, fun s s' t t' i _ hs h ht ht' => ?_⟩
  · rw [exec_eq, exec_eq]
    rfl
  · obtain rfl := exec_next ht
    obtain rfl := exec_next ht'
    conv_lhs => rw [hs]
    exact afterExec_src_congr i h

/-! ### The commands PACK and UNPACK (R92, R94) -/

/-- A word that decodes to a command matches the row of that command (R75). -/
theorem and_mask_of_decode {c : CmdWord} {i : Instr} (h : decode c = .ok i) :
    c &&& i.opcode.mask = i.opcode.matchBits := by
  obtain ⟨-, hencode⟩ := legalWordsAndCommandsCorrespond.2 c i h
  exact hencode ▸ encodesItsRow i

/-- A command that leaves the store, the wire and the source alone only responds. -/
theorem exec_eq_respond {i : Instr} {s : State} (hstore : storeAfter i s = s.pb)
    (hframes : framesOf i s = []) (hrequests : requestsOf i = []) :
    exec i s = .next { s with responses := s.responses ++ [okWord (dataOf i s)] } := by
  rw [exec_eq, afterExec, hstore, hframes, hrequests, List.append_nil, List.append_nil]

/-- The response that carries an unpacked word, as a number (D12: the top byte is zero). -/
theorem okWord_argb_unpack (w : PackedColor) :
    okWord (argb 0 (unpack w)) = BitVec.ofNat 33 (unpackNat w.toNat) := by
  have := w.isLt
  refine BitVec.eq_of_toNat_eq ?_
  rw [toNat_okWord, toNat_argb, toNat_unpack_red, toNat_unpack_green, toNat_unpack_blue,
    BitVec.toNat_ofNat, unpackNat]
  simp only [BitVec.ofNat_eq_ofNat, BitVec.toNat_ofNat]
  omega

/-- Settles O1: PACK's row, and its response as a number. -/
theorem packRespondsTheTruncatedWord : Obligations.PackRespondsTheTruncatedWord := by
  refine ⟨fun c => ⟨decode_of_spelledBy .pack, ?_⟩, fun r g b s => ?_⟩
  · rintro ⟨r, g, b, h⟩
    exact and_mask_of_decode h
  · rw [exec_eq_respond rfl rfl rfl, dataOf, okWord_cellData, toNat_pack, packNat]

/-- Settles O2: UNPACK's row, and its response as a number. -/
theorem unpackRespondsTheShiftedFields : Obligations.UnpackRespondsTheShiftedFields := by
  refine ⟨fun c => ⟨decode_of_spelledBy .unpack, ?_⟩, fun w s => ?_⟩
  · rintro ⟨w, h⟩
    exact and_mask_of_decode h
  · rw [exec_eq_respond rfl rfl rfl, dataOf, okWord_argb_unpack]

end Sys2Proof.Machine
end

section
/-! The pixel store commands INIT, GET and SET (spec/41_buffer.md R110 to R114): their whole next state, what a storing
command leaves unchanged, and what happens outside the bounds. -/

namespace Sys2Proof

/-- A command has one word, its encoding (R65). -/
theorem decode_eq_ok_iff_eq_encode {c : CmdWord} {i : Instr} (h : i.wellFormed = true) :
    decode c = .ok i ↔ c = encode i := by
  constructor
  · intro hd
    exact (legalWordsAndCommandsCorrespond.2 c i hd).2.symm
  · rintro rfl
    exact decode_encode h

namespace Machine

open Sys2Proof.Rules

/-! ### Cells by coordinate, by the bounds of R45 -/

/-- Inside the bounds a write by coordinate changes the cell of R44 and no other (R112). -/
theorem readCell_setCellAt_of_inBounds {x y : Int} (h : inBounds x y) (m : Memory) (v : PackedColor)
    (k : Nat) : (m.setCellAt x y v).readCell k = if k = Idx x y then v else m.readCell k := by
  rw [setCellAt_of_some (addresser_of_inBounds h), readCell_writeCell]

/-- Outside the bounds a write by coordinate changes nothing (R112). -/
theorem setCellAt_of_not_inBounds {x y : Int} (h : ¬ inBounds x y) (m : Memory) (v : PackedColor) :
    m.setCellAt x y v = m :=
  setCellAt_of_none (addresser_eq_none_iff.2 (mt inRange_iff_inBounds.1 h)) v

/-- Outside the bounds there is no cell (R49). -/
theorem cellAt_of_not_inBounds {x y : Int} (h : ¬ inBounds x y) (m : Memory) :
    m.cellAt x y = none := by
  rw [cellAt_eq, if_neg (mt inRange_iff_inBounds.1 h)]

/-- A pair inside the bounds that differs from `(x, y)` is another cell (R45). -/
theorem Idx_ne_of_inBounds {x y x' y' : Int} (h : inBounds x y) (h' : inBounds x' y')
    (hne : (x', y') ≠ (x, y)) : Idx x' y' ≠ Idx x y := by
  intro hidx
  obtain ⟨hx, hy⟩ := addresser_inj (addresser_of_inBounds h) (hidx ▸ addresser_of_inBounds h')
  exact hne (Prod.ext hx hy)

theorem cell_setCellAt_same {x y : Int} (h : inBounds x y) (m : Memory) (v : PackedColor) :
    cell (m.setCellAt x y v) x y = v := by
  rw [cell, readCell_setCellAt_of_inBounds h, if_pos rfl]

theorem cell_setCellAt_of_ne {x y x' y' : Int} (h : inBounds x y) (h' : inBounds x' y')
    (hne : (x', y') ≠ (x, y)) (m : Memory) (v : PackedColor) :
    cell (m.setCellAt x y v) x' y' = cell m x' y' := by
  rw [cell, readCell_setCellAt_of_inBounds h, if_neg (Idx_ne_of_inBounds h h' hne), cell]

/-- INIT's loop writes no cell outside the store (R110). -/
theorem readCell_fillCells_of_ge (m : Memory) (v : PackedColor) {k : Nat} (hk : 64 ≤ k) :
    (m.fillCells v).readCell k = m.readCell k := by
  have hnodup : ((List.range Config.NCELL).map id).Nodup := by
    rw [List.map_id]
    exact List.nodup_range
  refine (readCell_foldl_writeCell id (fun _ => v) (List.range Config.NCELL) hnodup m).2 k ?_
  rw [List.map_id, List.mem_range, NCELL_eq]
  omega

/-! ### The whole next state -/

/-- A command that only stores responds 0 and leaves the rest (R110, R112, R133). -/
theorem exec_eq_store {i : Instr} {s : State} (hdata : dataOf i s = 0) (hframes : framesOf i s = [])
    (hrequests : requestsOf i = []) :
    exec i s = .next { s with pb := storeAfter i s, responses := s.responses ++ [0] } := by
  rw [exec_eq, afterExec, hdata, hframes, hrequests, List.append_nil, List.append_nil]
  rfl

/-- INIT only stores: zero into the 64 cells (R110). -/
theorem exec_init (s : State) : ∃ m : Memory,
    exec .init s = .next { s with pb := m, responses := s.responses ++ [0] } ∧
    (∀ k < 64, m.readCell k = 0) ∧ ∀ k, 64 ≤ k → m.readCell k = s.pb.readCell k :=
  ⟨s.pb.fillCells 0, exec_eq_store rfl rfl rfl, fun _ => readCell_fillCells s.pb 0,
    fun _ => readCell_fillCells_of_ge s.pb 0⟩

theorem exec_set (x y : Int) (w : PackedColor) (s : State) : exec (.set x y w) s = .next { s with
    pb := s.pb.setCellAt x y w, responses := s.responses ++ [0] } :=
  exec_eq_store rfl rfl rfl

theorem exec_setColor (x y : Int) (a r g b : Byte) (s : State) :
    exec (.setColor x y a r g b) s = .next { s with
      pb := s.pb.setCellAt x y (pack r g b), responses := s.responses ++ [0] } :=
  exec_eq_store rfl rfl rfl

/-- GET only responds: the cell, or zero outside the bounds (R111). -/
theorem exec_get (x y : Int) (s : State) : exec (.get x y) s = .next { s with
    responses := s.responses ++
      [if inBounds x y then BitVec.ofNat 33 (cell s.pb x y).toNat else 0] } := by
  by_cases h : inBounds x y
  · rw [exec_get_of_inBounds h, okWord_cellData, if_pos h, cell]
  · rw [exec_eq_respond rfl rfl rfl, dataOf, cellAt_of_not_inBounds h, if_neg h]
    rfl

/-- COLORAT outside the bounds only responds the absent colour (R132). -/
theorem exec_colorAt_of_not_inBounds {x y : Int} (h : ¬ inBounds x y) (s : State) :
    exec (.colorAt x y) s = .next { s with responses := s.responses ++ [0] } := by
  rw [exec_eq_respond rfl rfl rfl, dataOf, cellAt_of_not_inBounds h]
  rfl

/-! ### The frame, the exact law, and the pairs out of range -/

/-- Settles O13: either command is a write by coordinate and a response. -/
theorem storingCommandsChangeOnlyTheirCell : Obligations.StoringCommandsChangeOnlyTheirCell := by
  intro x y i s t hi h
  obtain ⟨v, hv⟩ : ∃ v, exec i s = .next { s with
      pb := s.pb.setCellAt x y v, responses := s.responses ++ [0] } := by
    rcases hi with ⟨w, rfl⟩ | ⟨a, r, g, b, rfl⟩
    · exact ⟨w, exec_set x y w s⟩
    · exact ⟨pack r g b, exec_setColor x y a r g b s⟩
  cases hv.symm.trans h
  refine ⟨fun k hk a hlow hhigh => ?_, fun hnone a => ?_, rfl, rfl, rfl, rfl, List.prefix_append _ _⟩
  · rw [setCellAt_of_some hk, readByte_writeCell, if_neg hlow, if_neg hhigh]
  · rw [setCellAt_of_none hnone]

/-- Settles O35: GET sees the cell that SET wrote, and the cell of any other pair is another one. -/
theorem setThenGetIsExact : Obligations.SetThenGetIsExact := by
  intro x y v s hxy
  refine ⟨_, exec_set x y v s, ?_, fun x' y' hxy' hne => ⟨_, exec_get x' y' s, ?_⟩⟩
  · rw [exec_get, if_pos hxy, cell_setCellAt_same hxy]
  · rw [exec_get, cell_setCellAt_of_ne hxy hxy' hne]

/-- Settles O36: a read finds no cell, and a write leaves the store. -/
theorem outOfRangeReadsDefaultAndWritesNothing :
    Obligations.OutOfRangeReadsDefaultAndWritesNothing := by
  intro x y s h
  refine ⟨?_, exec_colorAt_of_not_inBounds h s, fun v => ?_, fun a r g b => ?_⟩
  · rw [exec_get, if_neg h]
  · rw [exec_set, setCellAt_of_not_inBounds h]
  · rw [exec_setColor, setCellAt_of_not_inBounds h]

/-! ### The commands INIT, GET and SET (R110 to R112) -/

/-- Settles O3: INIT has one word, and its loop writes the 64 cells. -/
theorem initBlackensEveryCell : Obligations.InitBlackensEveryCell := by
  have hword : encode .init = 0x3000000000000000 := by decide
  refine ⟨fun c => ?_, fun s => ?_⟩
  · rw [decode_eq_ok_iff_eq_encode rfl, hword]
  · obtain ⟨m, hexec, hstore, hrest⟩ := exec_init s
    exact ⟨_, hexec, rfl, hstore, hrest⟩

/-- Settles O4: GET's row, and its response inside and outside the bounds. -/
theorem getRespondsTheCellOrZero : Obligations.GetRespondsTheCellOrZero := by
  refine ⟨fun c => ⟨decode_of_spelledBy .get, ?_⟩, exec_get⟩
  rintro ⟨x, y, h⟩
  exact and_mask_of_decode h

/-- Settles O5: SET's row, and the store it leaves inside and outside the bounds. -/
theorem setWritesTheCellOrNothing : Obligations.SetWritesTheCellOrNothing := by
  refine ⟨fun c => ⟨decode_of_spelledBy .set, ?_⟩, fun x y w s => ⟨_, exec_set x y w s, rfl, ?_, ?_⟩⟩
  · rintro ⟨x, y, w, h⟩
    exact and_mask_of_decode h
  · exact fun hxy => readCell_setCellAt_of_inBounds hxy s.pb w
  · exact fun hxy => setCellAt_of_not_inBounds hxy s.pb w

end Machine
end Sys2Proof
end

section
/-! The raster commands BOUNDS, COLORAT, SETCOLOR and LOADIMG (spec/42_raster.md R130 to R136): their whole next state,
the colour a cell gives back, and LOADIMG as a run of SETCOLOR commands. -/

namespace Sys2Proof.Machine

open Sys2Proof.Rules

/-! ### Packed words by the integer formula (R90) -/

theorem pack_eq_ofNat_packNat (r g b : Byte) :
    pack r g b = BitVec.ofNat 16 (packNat r.toNat g.toNat b.toNat) := by
  rw [packNat, ← toNat_pack, BitVec.ofNat_toNat, BitVec.setWidth_eq]

theorem packPixel_eq_packedPixel (c : Pixel) : packPixel c = packedPixel c := by
  rw [packedPixel, packNat, ← toNat_packPixel, BitVec.ofNat_toNat, BitVec.setWidth_eq]

/-! ### The colour in a response (R66, R67) -/

/-- The fields of a response that carries a colour, from the top. -/
theorem okWord_argb (a : Byte) (c : Rgb) :
    okWord (argb a c) = (0 : BitVec 1) ++ a ++ c.red ++ c.green ++ c.blue := by
  simp only [okWord, argb, BitVec.append_assoc, BitVec.cast_eq]

/-- The response that carries a cell's colour, as a number (R93; D13 for the alpha). -/
theorem okWord_argb_opaque (w : PackedColor) :
    okWord (argb Config.opaqueAlpha (unpack w)) =
      BitVec.ofNat 33 (0xFF000000 + unpackNat w.toNat) := by
  have := w.isLt
  have halpha : Config.opaqueAlpha.toNat = 255 := rfl
  refine BitVec.eq_of_toNat_eq ?_
  rw [toNat_okWord, toNat_argb, halpha, toNat_unpack_red, toNat_unpack_green, toNat_unpack_blue,
    BitVec.toNat_ofNat, unpackNat]
  omega

/-! ### The whole next state -/

theorem exec_bounds (s : State) :
    exec .bounds s = .next { s with responses := s.responses ++ [0x000000808] } := by
  have hresponse : okWord 0x00000808 = 0x000000808 := by decide
  rw [exec_eq_respond rfl rfl rfl, dataOf, hresponse]

/-- COLORAT inside the bounds only responds the opaque colour of the cell (R132). -/
theorem exec_colorAt_of_inBounds {x y : Int} (h : inBounds x y) (s : State) :
    exec (.colorAt x y) s = .next { s with
      responses := s.responses ++ [okWord (argb Config.opaqueAlpha (unpack (cell s.pb x y)))] } := by
  have hcell : s.pb.cellAt x y = some (cell s.pb x y) := by
    rw [cellAt_eq, if_pos (inRange_iff_inBounds.2 h), cell]
  rw [exec_eq_respond rfl rfl rfl, dataOf, hcell]
  rfl

/-- COLORAT only responds: the opaque colour, or the absent colour outside the bounds (R132). -/
theorem exec_colorAt (x y : Int) (s : State) : exec (.colorAt x y) s = .next { s with
    responses := s.responses ++
      [if inBounds x y then BitVec.ofNat 33 (0xFF000000 + unpackNat (cell s.pb x y).toNat)
        else 0] } := by
  by_cases h : inBounds x y
  · rw [exec_colorAt_of_inBounds h, okWord_argb_opaque, if_pos h]
  · rw [exec_colorAt_of_not_inBounds h, if_neg h]

/-- The order of the loop of R134 is row after row (D15). -/
theorem visitOrder_eq_rowMajor : visitOrder = rowMajor := by decide

/-- LOADIMG stores the image, responds 0 and makes its requests (R134). -/
theorem exec_loadImg (s : State) : exec .loadImg s = .next { s with
    pb := loadImage s.src s.pb, responses := s.responses ++ [0],
    requests := s.requests ++ rowMajor } := by
  rw [exec_eq, afterExec, storeAfter, dataOf, framesOf, requestsOf, visitOrder_eq_rowMajor,
    List.append_nil]
  rfl

/-! ### The store that LOADIMG leaves (R134) -/

/-- Inside the bounds every cell comes from a pixel of the image. -/
theorem exists_cell_loadImage_eq (img : SourceImage) (m : Memory) {x y : Int} (h : inBounds x y) :
    ∃ q, cell (loadImage img m) x y = packPixel (img.pixel q) := by
  obtain ⟨q, hq⟩ := exists_request (addresser_lt (addresser_of_inBounds h))
  refine ⟨q, ?_⟩
  rw [cell, hq, readCell_loadImage]

/-- Settles O39: a step of the loop is the store of one SETCOLOR, at a pair that the addresser accepts. -/
theorem loadImgIsSixtyFourSetColors : Obligations.LoadImgIsSixtyFourSetColors := by
  refine fun s => ⟨_, exec_loadImg s, ?_⟩
  rw [loadImage, visitOrder_eq_rowMajor]
  refine List.foldl_hom State.pb fun u q => ?_
  rw [exec_setColor]
  exact (setCellAt_of_some (addresser_request q) _).symm

/-! ### The wide colour round trip (R95, R136) -/

/-- SETCOLOR changes the response of COLORAT at its own pair only. -/
theorem colorAt_setColor_of_ne {x y x' y' : Int} (h : inBounds x y) (hne : (x', y') ≠ (x, y))
    {a r g b : Byte} {s t : State} (ht : exec (.setColor x y a r g b) s = .next t) :
    ∃ d : RespWord,
      exec (.colorAt x' y') s = .next { s with responses := s.responses ++ [d] } ∧
      exec (.colorAt x' y') t = .next { t with responses := t.responses ++ [d] } := by
  cases (exec_setColor x y a r g b s).symm.trans ht
  by_cases h' : inBounds x' y'
  · refine ⟨_, exec_colorAt_of_inBounds h' s, ?_⟩
    rw [exec_colorAt_of_inBounds h', cell_setCellAt_of_ne h h' hne]
  · exact ⟨0, exec_colorAt_of_not_inBounds h' s, exec_colorAt_of_not_inBounds h' _⟩

/-- Settles O37: COLORAT sees `unpack (pack r g b)` in the cell that SETCOLOR wrote, and the pack of white in every
cell after the white image. -/
theorem wideColourRoundTripIsLossy : Obligations.WideColourRoundTripIsLossy := by
  refine ⟨fun x y a r g b s hxy => ?_, fun s hwhite => ⟨_, exec_loadImg s, fun x y hxy => ?_⟩⟩
  · have ht := exec_setColor x y a r g b s
    refine ⟨_, ht, ?_, fun x' y' hne => colorAt_setColor_of_ne hxy hne ht⟩
    rw [exec_colorAt_of_inBounds hxy, cell_setCellAt_same hxy, unpack_pack, okWord_argb]
  · obtain ⟨q, hcell⟩ := exists_cell_loadImage_eq s.src s.pb hxy
    have hresponse : okWord (argb Config.opaqueAlpha (unpack (packPixel 0xFFFFFFFF))) =
        0x0FFF8FCF8 := by decide
    rw [exec_colorAt_of_inBounds hxy, hcell, hwhite, hresponse]

/-! ### The commands BOUNDS, COLORAT, SETCOLOR and LOADIMG (R130, R132 to R134) -/

/-- Settles O6: BOUNDS has one word and one response. -/
theorem boundsRespondsTheRectangle : Obligations.BoundsRespondsTheRectangle := by
  have hword : encode .bounds = 0x6000000000000000 := by decide
  refine ⟨fun c => ?_, exec_bounds⟩
  rw [decode_eq_ok_iff_eq_encode rfl, hword]

/-- Settles O7: COLORAT's row, and its response inside and outside the bounds. -/
theorem colorAtRespondsTheColourOrAbsent : Obligations.ColorAtRespondsTheColourOrAbsent := by
  refine ⟨fun c => ⟨decode_of_spelledBy .colorAt, ?_⟩, exec_colorAt⟩
  rintro ⟨x, y, h⟩
  exact and_mask_of_decode h

/-- Settles O8: SETCOLOR's row, and the store it leaves inside and outside the bounds. -/
theorem setColorWritesTheQuantizedCell : Obligations.SetColorWritesTheQuantizedCell := by
  refine ⟨fun c => ⟨decode_of_spelledBy .setColor, ?_⟩,
    fun x y a r g b s => ⟨_, exec_setColor x y a r g b s, rfl, fun hxy k => ?_, fun hxy => ?_⟩⟩
  · rintro ⟨x, y, a, r, g, b, h⟩
    exact and_mask_of_decode h
  · rw [readCell_setCellAt_of_inBounds hxy, pack_eq_ofNat_packNat]
  · exact setCellAt_of_not_inBounds hxy s.pb _

/-- Settles O9: LOADIMG has one word, and its loop leaves the packed pixels in the 64 cells. -/
theorem loadImgQuantizesTheSourceIntoTheStore :
    Obligations.LoadImgQuantizesTheSourceIntoTheStore := by
  have hword : encode .loadImg = 0x9000000000000000 := by decide
  refine ⟨fun c => ?_, fun s => ⟨_, exec_loadImg s, rfl, fun q => ?_, fun k hk => ?_⟩⟩
  · rw [decode_eq_ok_iff_eq_encode rfl, hword]
  · rw [cell, readCell_loadImage, packPixel_eq_packedPixel, SourceImage.pixel]
  · exact readCell_loadImage_of_ge s.src s.pb hk

end Sys2Proof.Machine
end

section
/-! The serializer commands SER, SERZ and SERIMG (spec/43_serializer.md R150 to R155): their whole next state, the bytes
of the frame that each emits, and SERIMG as LOADIMG followed by SER. -/

namespace Sys2Proof.Machine

open Sys2Proof.Rules

/-! ### The whole next state -/

/-- A command that emits one frame and stores nothing responds 0 and leaves the rest (R150 to R152). -/
theorem exec_eq_emit {i : Instr} {s : State} {F : Frame} (hstore : storeAfter i s = s.pb)
    (hdata : dataOf i s = 0) (hframes : framesOf i s = [F]) :
    exec i s = .next { s with
      frames := s.frames ++ [F], responses := s.responses ++ [0],
      requests := s.requests ++ requestsOf i } := by
  rw [exec_eq, afterExec, hstore, hdata, hframes]
  rfl

theorem exec_ser (s : State) : exec .ser s = .next { s with
    frames := s.frames ++ [serFrame s.pb], responses := s.responses ++ [0] } := by
  rw [exec_eq_emit rfl rfl rfl, requestsOf, List.append_nil]

theorem exec_serz (s : State) : exec .serz s = .next { s with
    frames := s.frames ++ [serFrame blankStore], responses := s.responses ++ [0] } := by
  rw [exec_eq_emit rfl rfl rfl, requestsOf, List.append_nil]

theorem exec_serImg (s : State) : exec .serImg s = .next { s with
    frames := s.frames ++ [serFrame (loadImage s.src freshStore)],
    responses := s.responses ++ [0], requests := s.requests ++ rowMajor } := by
  rw [exec_eq_emit rfl rfl rfl, requestsOf, visitOrder_eq_rowMajor]

/-! ### The bytes of the frames (R46, R151, R154) -/

/-- Byte `k` of the frame depends on cell `k / 2` only (R46). -/
theorem serFrame_getElem?_congr {P Q : Memory} {k : Nat}
    (h : k < 128 → P.readCell (k / 2) = Q.readCell (k / 2)) :
    (serFrame P)[k]? = (serFrame Q)[k]? := by
  obtain ⟨hlenP, hbytesP⟩ := frameIsLittleEndianRowMajor P
  obtain ⟨hlenQ, hbytesQ⟩ := frameIsLittleEndianRowMajor Q
  by_cases hk : k < 128
  · rw [hbytesP k hk, hbytesQ k hk, h hk]
  · rw [List.getElem?_eq_none (by omega), List.getElem?_eq_none (by omega)]

/-- A zero cell puts a zero byte at either of its offsets (R46). -/
theorem serFrame_getElem?_of_readCell_eq_zero {P : Memory} {k : Nat} (hk : k < 128)
    (h : P.readCell (k / 2) = 0) : (serFrame P)[k]? = some 0 := by
  rw [(frameIsLittleEndianRowMajor P).2 k hk, h]
  split <;> rfl

/-- The frame of the blank store is all zero (R151). -/
theorem serFrame_blankStore : serFrame blankStore = List.replicate 128 0 := by
  refine List.ext_getElem? fun k => ?_
  by_cases hk : k < 128
  · have hcell : blankStore.readCell (k / 2) = 0 := readCell_nil _
    rw [serFrame_getElem?_of_readCell_eq_zero hk hcell, List.getElem?_replicate_of_lt hk]
  · have hlen : (serFrame blankStore).length = 128 := serFrame_length _
    rw [List.getElem?_eq_none (by omega), List.getElem?_replicate, if_neg hk]

/-- The frame of the image does not show the store that it was loaded over (R134, R152). -/
theorem serFrame_loadImage (img : SourceImage) (m n : Memory) :
    serFrame (loadImage img m) = serFrame (loadImage img n) := by
  refine serFrame_congr fun k hk => ?_
  obtain ⟨q, rfl⟩ := exists_request hk
  rw [readCell_loadImage, readCell_loadImage]

/-! ### One cell, the corners, and SERIMG by LOADIMG -/

/-- Settles O32: an offset outside the two of cell `i` belongs to another cell. -/
theorem oneCellIsTwoBytesOfTheFrame : Obligations.OneCellIsTwoBytesOfTheFrame := by
  intro P Q i hi hothers
  obtain ⟨hlowP, hhighP⟩ := serFrame_getElem? P (i := i) hi
  obtain ⟨hlowQ, hhighQ⟩ := serFrame_getElem? Q (i := i) hi
  refine ⟨fun k hlow hhigh => serFrame_getElem?_congr fun hk => ?_, ?_, ?_⟩
  · exact hothers (k / 2) (by omega) (by omega)
  · rw [hlowP, hlowQ, Option.some_inj]
    rfl
  · rw [hhighP, hhighQ, Option.some_inj]
    rfl

/-- Settles O34: the last SET leaves `w` in cell 63, `v` in cell 0, and INIT's zero between. -/
theorem cornersGoToTheEndsOfTheFrame : Obligations.CornersGoToTheEndsOfTheFrame := by
  intro s v w
  obtain ⟨m, hinit, hzero, -⟩ := exec_init s
  have hcells (k : Nat) : ((m.setCellAt 0 0 v).setCellAt 7 7 w).readCell k =
      if k = 63 then w else if k = 0 then v else m.readCell k := by
    rw [readCell_setCellAt_of_inBounds (by decide), readCell_setCellAt_of_inBounds (by decide)]
    rfl
  obtain ⟨hv0, hv1⟩ := serFrame_getElem? ((m.setCellAt 0 0 v).setCellAt 7 7 w) (i := 0) (by decide)
  obtain ⟨hw0, hw1⟩ := serFrame_getElem? ((m.setCellAt 0 0 v).setCellAt 7 7 w) (i := 63) (by decide)
  rw [hcells] at hv0 hv1 hw0 hw1
  refine ⟨_, _, _, _, hinit, exec_set 0 0 v _, exec_set 7 7 w _, exec_ser _, serFrame_length _,
    hv0, hv1, hw0, hw1, fun k hlo hhi => ?_⟩
  refine serFrame_getElem?_of_readCell_eq_zero (by omega) ?_
  rw [hcells, if_neg (by omega), if_neg (by omega), hzero _ (by omega)]

/-- Settles O40: both frames are those of the image, loaded over `PB` and over a fresh store. -/
theorem serImgEqualsLoadImgThenSer : Obligations.SerImgEqualsLoadImgThenSer := by
  intro s
  refine ⟨_, _, _, _, exec_loadImg s, exec_ser _, exec_serImg s, rfl, ?_, rfl, rfl⟩
  rw [serFrame_loadImage s.src freshStore s.pb]

/-! ### The commands SER, SERZ and SERIMG (R150 to R152) -/

/-- Settles O10: SER has one word, and its frame is the bytes of the 64 cells. -/
theorem serEmitsTheStore : Obligations.SerEmitsTheStore := by
  have hword : encode .ser = 0xA000000000000000 := by decide
  refine ⟨fun c => ?_, fun s => ⟨_, exec_ser s, serFrame_length _, fun i hi => ?_⟩⟩
  · rw [decode_eq_ok_iff_eq_encode rfl, hword]
  · exact serFrame_getElem? s.pb hi

/-- Settles O11: SERZ has one word, and its frame is that of the blank store. -/
theorem serzEmitsZerosAndKeepsTheStore : Obligations.SerzEmitsZerosAndKeepsTheStore := by
  have hword : encode .serz = 0xB000000000000000 := by decide
  refine ⟨fun c => ?_, fun s => ?_⟩
  · rw [decode_eq_ok_iff_eq_encode rfl, hword]
  · rw [exec_serz, serFrame_blankStore]

/-- Settles O12: SERIMG has one word, and its frame is the bytes of the packed pixels. -/
theorem serImgEmitsTheQuantizedSource : Obligations.SerImgEmitsTheQuantizedSource := by
  have hword : encode .serImg = 0xC000000000000000 := by decide
  refine ⟨fun c => ?_, fun s => ⟨_, exec_serImg s, serFrame_length _, fun q => ?_⟩⟩
  · rw [decode_eq_ok_iff_eq_encode rfl, hword]
  · have hbytes := serFrame_getElem? (loadImage s.src freshStore) (Idx_request q).2
    rwa [readCell_loadImage, packPixel_eq_packedPixel, SourceImage.pixel] at hbytes

end Sys2Proof.Machine
end

section
/-! Reset, runs and hazards (spec/70_reset_and_hazards.md R190 to R203): what reset and INIT leave, how a run answers the
host's moves, and which moves touch a cell or a port. -/

namespace Sys2Proof.Machine

open Sys2Proof.Rules

/-! ### Reset and INIT (R190 to R192) -/

/-- Settles O43: at reset the store has no entry, and nothing has gone out. -/
theorem invariantHoldsAtReset : Obligations.InvariantHoldsAtReset where
  store := wf_nil
  frames := List.forall_mem_nil _
  responses := List.forall_mem_nil _

/-- Settles O17: reset leaves the empty store, every byte of which reads as zero. -/
theorem resetMoveBlackensTheStore : Obligations.ResetMoveBlackensTheStore :=
  fun _ _ h => ⟨_, step_reset h, fun k => readCell_nil k, rfl, rfl, rfl, rfl⟩

/-- INIT's loop leaves the store with no entry: two canonical stores with the same cells are equal. -/
theorem fillCells_zero {m : Memory} (hm : m.wf = true) : m.fillCells 0 = [] := by
  refine wf_ext (fillCells_wf hm 0) wf_nil fun k hk => ?_
  rw [readCell_fillCells m 0 hk, readCell_nil]

/-- Settles O21: both stores are the one with no entry. -/
theorem initLeavesTheResetStore : Obligations.InitLeavesTheResetStore := by
  intro s hs
  refine ⟨afterExec .init s, exec_eq .init s, ?_⟩
  rw [afterExec_pb, storeAfter, fillCells_zero hs, reset_pb]

/-! ### Runs (R202) -/

/-- Settles O18, by induction on the number of steps. -/
theorem idleBlockHoldsItsState : Obligations.IdleBlockHoldsItsState := by
  intro s k h
  induction k with
  | zero => exact runSteps_zero s
  | succ k ih => rw [runSteps_succ k (step_idle h), ih]

/-- A word is legal exactly when it spells a command (R78, R171). -/
theorem legal_command_iff {c : CmdWord} {img : SourceImage} :
    (HostMove.command c img).legal = true ↔ spellsCommand c := by
  rw [spellsCommand_iff_decode_ok, HostMove.legal]
  cases decode c <;> simp

/-- `rs` has one response for each command among the moves, none ILLEGAL when all moves are legal. -/
def Answers (ms : List HostMove) (rs : List RespWord) : Prop :=
  rs.length = ms.countP HostMove.isCommand ∧
    ((∀ m ∈ ms, m.legal = true) → ∀ r ∈ rs, r.getLsbD 32 = false)

theorem answers_nil : Answers [] [] := ⟨rfl, fun _ => List.forall_mem_nil _⟩

theorem answers_reset : Answers [.reset] [] := ⟨rfl, fun _ => List.forall_mem_nil _⟩

theorem answers_command {c : CmdWord} {r : RespWord} (h : r.getLsbD 32 = true ↔ ¬ spellsCommand c)
    (img : SourceImage) : Answers [.command c img] [r] := by
  refine ⟨rfl, fun hlegal => List.forall_mem_singleton.2 (Bool.eq_false_iff.2 fun hill => ?_)⟩
  exact h.1 hill (legal_command_iff.1 (hlegal _ List.mem_cons_self))

theorem Answers.append {ms ms' : List HostMove} {rs rs' : List RespWord} (h : Answers ms rs)
    (h' : Answers ms' rs') : Answers (ms ++ ms') (rs ++ rs') := by
  obtain ⟨hlen, hill⟩ := h
  obtain ⟨hlen', hill'⟩ := h'
  refine ⟨by rw [List.length_append, List.countP_append, hlen, hlen'], fun hlegal => ?_⟩
  obtain ⟨hms, hms'⟩ := List.forall_mem_append.1 hlegal
  exact List.forall_mem_append.2 ⟨hill hms, hill' hms'⟩

/-- One step takes one move and answers it. -/
theorem step_answers {s : State} {m : HostMove} {rest : List HostMove} (h : s.pending = m :: rest) :
    ∃ t rs, step s = .next t ∧ t.pending = rest ∧ t.responses = s.responses ++ rs ∧
      Answers [m] rs := by
  cases m with
  | reset => exact ⟨_, [], step_reset h, rfl, (List.append_nil _).symm, answers_reset⟩
  | command c img =>
    obtain ⟨t, r, hstep, hpending, hresponses, hill, -⟩ := everyCommandRespondsOnce s c img rest h
    exact ⟨t, [r], hstep, hpending, hresponses, answers_command hill img⟩

/-- As many steps as there are moves take and answer them all. -/
theorem run_answers {ms : List HostMove} {s : State} (h : s.pending = ms) :
    ∃ t rs, runSteps ms.length s = .next t ∧ t.pending = [] ∧ t.responses = s.responses ++ rs ∧
      Answers ms rs := by
  induction ms generalizing s with
  | nil => exact ⟨s, [], runSteps_zero s, h, (List.append_nil _).symm, answers_nil⟩
  | cons m rest ih =>
    obtain ⟨u, rs, hstep, hpending, hresponses, hm⟩ := step_answers h
    obtain ⟨t, rs', hrun, hend, hresponses', hrest⟩ := ih hpending
    refine ⟨t, rs ++ rs', (runSteps_succ rest.length hstep).trans hrun, hend, ?_, hm.append hrest⟩
    rw [hresponses', hresponses, List.append_assoc]

/-- Settles O53, by induction on the host's moves. -/
theorem runAnswersEveryCommand : Obligations.RunAnswersEveryCommand := fun _ => run_answers rfl

/-! ### Which moves touch a cell or a port (R203) -/

/-- A step changes a cell only when its move may write it. -/
theorem exists_writesCell_of_readCell_ne {s t : State} {k : Nat} (h : step s = .next t)
    (hne : t.pb.readCell k ≠ s.pb.readCell k) : ∃ m ∈ s.pending.head?, m.writesCell k = true := by
  by_contra hno
  push Not at hno
  exact hne (readCell_step h fun m hm => Bool.eq_false_iff.2 (hno m hm))

/-- A command that emits a frame is a serializer command (R72). -/
theorem serializer_of_framesOf_ne_nil {i : Instr} {s : State} (h : framesOf i s ≠ []) :
    i = .ser ∨ i = .serz ∨ i = .serImg := by
  by_contra hno
  push Not at hno
  obtain ⟨hser, hserz, himg⟩ := hno
  exact h (framesOf_eq_nil hser hserz himg s)

/-- A command that reads the source is a bulk command (R70). -/
theorem bulk_of_requestsOf_ne_nil {i : Instr} (h : requestsOf i ≠ []) :
    i = .loadImg ∨ i = .serImg := by
  by_contra hno
  push Not at hno
  obtain ⟨hload, himg⟩ := hno
  exact h (requestsOf_eq_nil hload himg)

/-- A step puts on the wire and reads from the source what its command does, and nothing without a legal word. -/
theorem step_ports {s t : State} (h : step s = .next t) :
    (t.frames = s.frames ∧ t.requests = s.requests) ∨
    ∃ i img u, s.pending.head? = some (.command (encode i) img) ∧
      t.frames = s.frames ++ framesOf i u ∧ t.requests = s.requests ++ requestsOf i := by
  rcases step_cases h with ⟨-, rfl⟩ | ⟨-, -, rfl⟩ | ⟨c, img, rest, i, hp, hd, rfl⟩ |
    ⟨-, -, -, -, -, -, rfl⟩
  · exact .inl ⟨rfl, rfl⟩
  · exact .inl ⟨rfl, rfl⟩
  · obtain ⟨-, rfl⟩ := legalWordsAndCommandsCorrespond.2 c i hd
    exact .inr ⟨i, img, accept s rest img, by rw [hp, List.head?_cons], rfl, rfl⟩
  · exact .inl ⟨rfl, rfl⟩

/-- Only the words of LOADIMG and SERIMG read the source (R70). -/
theorem word_of_requests_ne {s t : State} (h : step s = .next t) (hne : t.requests ≠ s.requests) :
    ∃ c img, s.pending.head? = some (.command c img) ∧
      (c = encode .loadImg ∨ c = encode .serImg) := by
  rcases step_ports h with ⟨-, hsame⟩ | ⟨i, img, u, hp, -, hrequests⟩
  · exact absurd hsame hne
  · have hreads : requestsOf i ≠ [] := fun hnil =>
      hne (by rw [hrequests, hnil, List.append_nil])
    exact ⟨_, img, hp, (bulk_of_requestsOf_ne_nil hreads).imp (congrArg encode) (congrArg encode)⟩

/-- Only the words of SER, SERZ and SERIMG use the wire (R72). -/
theorem word_of_frames_ne {s t : State} (h : step s = .next t) (hne : t.frames ≠ s.frames) :
    ∃ c img, s.pending.head? = some (.command c img) ∧
      (c = encode .ser ∨ c = encode .serz ∨ c = encode .serImg) := by
  rcases step_ports h with ⟨hsame, -⟩ | ⟨i, img, u, hp, hframes, -⟩
  · exact absurd hsame hne
  · have hemits : framesOf i u ≠ [] := fun hnil => hne (by rw [hframes, hnil, List.append_nil])
    exact ⟨_, img, hp, (serializer_of_framesOf_ne_nil hemits).imp (congrArg encode)
      (Or.imp (congrArg encode) (congrArg encode))⟩

/-- Only a command word is responded to (R66). -/
theorem word_of_responses_ne {s t : State} (h : step s = .next t)
    (hne : t.responses ≠ s.responses) : ∃ c img, s.pending.head? = some (.command c img) := by
  rcases step_cases h with ⟨-, rfl⟩ | ⟨rest, -, rfl⟩ | ⟨c, img, rest, i, hp, -, -⟩ |
    ⟨c, img, rest, e, hp, -, -⟩
  · exact absurd rfl hne
  · exact absurd rfl hne
  · exact ⟨c, img, by rw [hp, List.head?_cons]⟩
  · exact ⟨c, img, by rw [hp, List.head?_cons]⟩

/-- Settles O47, port by port, with the words as the encodings of their commands. -/
theorem onlyNamedMovesTouchEachPort : Obligations.OnlyNamedMovesTouchEachPort := by
  intro s t h
  have hload : encode .loadImg = 0x9000000000000000 := by decide
  have hser : encode .ser = 0xA000000000000000 := by decide
  have hserz : encode .serz = 0xB000000000000000 := by decide
  have himg : encode .serImg = 0xC000000000000000 := by decide
  rw [← hload, ← hser, ← hserz, ← himg]
  exact ⟨fun k _ => exists_writesCell_of_readCell_ne h, word_of_requests_ne h, word_of_frames_ne h,
    word_of_responses_ne h⟩

end Sys2Proof.Machine
end
